-- ==== Sys2Proof/Word.lean ====
section
/-!
DEFINITION. The bit-vector types of the machine (spec/00_scope.md R9, R11): everything is unsigned, bit 0 is the
least significant.
-/

namespace Sys2Proof

/-- An 8-bit unsigned value: a memory cell, a V register, a timer, an immediate `kk`. -/
abbrev Byte := BitVec 8

/-- A 16-bit unsigned value: an instruction word, PC, I, a stack entry (R20, R70). -/
abbrev Word := BitVec 16

/-- A 4-bit field of the instruction word, the immediate `n` (R11). -/
abbrev Nibble := BitVec 4

/-- A register number, the 4-bit field `x` or `y` (R11, R21): every value names a register. -/
abbrev Reg := BitVec 4

/-- The 12-bit address field `addr` (R11). -/
abbrev Addr := BitVec 12

end Sys2Proof
end

