-- ==== Sys2Proof/WellFormed.lean ====
section
/-!
DEFINITION. Which instruction words and which instructions are well formed. The opcode map of spec/30_encoding.md
R76 stands here as data, its `match` and `mask` columns copied row by row, apart from the decoder of Decode.lean,
so that the two can be held against each other.
-/

namespace Sys2Proof

/-- One row of the opcode map: a word `w` is this instruction when `w AND mask = pattern` (R76). -/
structure OpcodeRow where
  pattern : Word
  mask    : Word
  deriving DecidableEq, Repr

/-- The `match` and `mask` columns of R76, in the table's order. -/
def opcodeRows : List OpcodeRow :=
  [⟨0x00E0, 0xFFFF⟩, ⟨0x00EE, 0xFFFF⟩, ⟨0x1000, 0xF000⟩, ⟨0x2000, 0xF000⟩, ⟨0x3000, 0xF000⟩,
   ⟨0x4000, 0xF000⟩, ⟨0x5000, 0xF00F⟩, ⟨0x6000, 0xF000⟩, ⟨0x7000, 0xF000⟩, ⟨0x8000, 0xF00F⟩] ++
  [⟨0x8001, 0xF00F⟩, ⟨0x8002, 0xF00F⟩, ⟨0x8003, 0xF00F⟩, ⟨0x8004, 0xF00F⟩, ⟨0x8005, 0xF00F⟩,
   ⟨0x8006, 0xF00F⟩, ⟨0x8007, 0xF00F⟩, ⟨0x800E, 0xF00F⟩, ⟨0x9000, 0xF00F⟩, ⟨0xA000, 0xF000⟩] ++
  [⟨0xB000, 0xF000⟩, ⟨0xC000, 0xF000⟩, ⟨0xD000, 0xF000⟩, ⟨0xE09E, 0xF0FF⟩, ⟨0xE0A1, 0xF0FF⟩,
   ⟨0xF007, 0xF0FF⟩, ⟨0xF00A, 0xF0FF⟩, ⟨0xF015, 0xF0FF⟩, ⟨0xF018, 0xF0FF⟩, ⟨0xF01E, 0xF0FF⟩] ++
  [⟨0xF029, 0xF0FF⟩, ⟨0xF033, 0xF0FF⟩, ⟨0xF055, 0xF0FF⟩, ⟨0xF065, 0xF0FF⟩]

/-- `w AND mask = pattern` (R76). -/
def OpcodeRow.matchesWord (r : OpcodeRow) (w : Word) : Bool := (w &&& r.mask) == r.pattern

/-- A word is legal when it matches a row of the map; every other word is illegal (R77). -/
def legalWord (w : Word) : Bool := opcodeRows.any (fun r => r.matchesWord w)

/-- The row of R76 an instruction belongs to, counted from 0 in the table's order. -/
def Instr.rowIndex : Instr → Nat
  | .cls => 0 | .ret => 1 | .jp _ => 2 | .call _ => 3 | .seByte _ _ => 4
  | .sneByte _ _ => 5 | .seReg _ _ => 6 | .ldByte _ _ => 7 | .addByte _ _ => 8 | .ldReg _ _ => 9
  | .orReg _ _ => 10 | .andReg _ _ => 11 | .xorReg _ _ => 12 | .addReg _ _ => 13 | .subReg _ _ => 14
  | .shr _ _ => 15 | .subnReg _ _ => 16 | .shl _ _ => 17 | .sneReg _ _ => 18 | .ldI _ => 19
  | .jpV0 _ => 20 | .rnd _ _ => 21 | .drw _ _ _ => 22 | .skp _ => 23 | .sknp _ => 24
  | .ldVxDt _ => 25 | .ldVxK _ => 26 | .ldDtVx _ => 27 | .ldStVx _ => 28 | .addI _ => 29
  | .ldF _ => 30 | .ldB _ => 31 | .ldMemVx _ => 32 | .ldVxMem _ => 33

/-- Every instruction is well formed: each operand's type has exactly the width of its field, and every value of
every field is accepted (R72, R75), so that an ill-formed instruction cannot be written. What can be ill formed is a
WORD, and `legalWord` is the check of it. -/
def Instr.wellFormed (_ : Instr) : Bool := true

end Sys2Proof
end

