-- ==== Sys2Proof/Decode.lean ====
section
/-!
DEFINITION. The decoder and the encoder, from the formats and the opcode map of spec/30_encoding.md (R71 to R77).
Decoding is total on any bytes and rejects by name; the encoder writes the same words back.
-/

namespace Sys2Proof

/-- Why bytes are no instruction. -/
inductive DecodeError where
  /-- The word matches no row of the opcode map (R77). Raised by `decodeWord`. Safe: the spec's own fault. -/
  | unsupportedOpcode (w : Word)
  /-- Fewer than two bytes are left, and an instruction has two (R70). Raised by `decode` only. Safe. -/
  | truncated
  deriving DecidableEq, Repr

/-! ## Fields of the instruction word (R11) -/

/-- `op = w[15:12]` -/
def opOf (w : Word) : Nibble := w.extractLsb' 12 4

/-- `x = w[11:8]` -/
def xOf (w : Word) : Reg := w.extractLsb' 8 4

/-- `y = w[7:4]` -/
def yOf (w : Word) : Reg := w.extractLsb' 4 4

/-- `n = w[3:0]` -/
def nOf (w : Word) : Nibble := w.extractLsb' 0 4

/-- `kk = w[7:0]` -/
def kkOf (w : Word) : Byte := w.extractLsb' 0 8

/-- `addr = w[11:0]` -/
def addrOf (w : Word) : Addr := w.extractLsb' 0 12

/-! ## The decoder -/

/-- Family 0x0 is resolved on the whole word (R73, R74). -/
def decodeFamily0 (w : Word) : Except DecodeError Instr :=
  match w.toNat with
  | 0x00E0 => .ok .cls
  | 0x00EE => .ok .ret
  | _      => .error (.unsupportedOpcode w)

/-- Family 0x8 is resolved on `w[3:0]` (R73). -/
def decodeFamily8 (w : Word) : Except DecodeError Instr :=
  match (nOf w).toNat with
  | 0x0 => .ok (.ldReg (xOf w) (yOf w))
  | 0x1 => .ok (.orReg (xOf w) (yOf w))
  | 0x2 => .ok (.andReg (xOf w) (yOf w))
  | 0x3 => .ok (.xorReg (xOf w) (yOf w))
  | 0x4 => .ok (.addReg (xOf w) (yOf w))
  | 0x5 => .ok (.subReg (xOf w) (yOf w))
  | 0x6 => .ok (.shr (xOf w) (yOf w))
  | 0x7 => .ok (.subnReg (xOf w) (yOf w))
  | 0xE => .ok (.shl (xOf w) (yOf w))
  | _   => .error (.unsupportedOpcode w)

/-- Family 0xE is resolved on `w[7:0]` (R73). -/
def decodeFamilyE (w : Word) : Except DecodeError Instr :=
  match (kkOf w).toNat with
  | 0x9E => .ok (.skp (xOf w))
  | 0xA1 => .ok (.sknp (xOf w))
  | _    => .error (.unsupportedOpcode w)

/-- Family 0xF is resolved on `w[7:0]` (R73); `Fx55` is recognised by name (R78). -/
def decodeFamilyF (w : Word) : Except DecodeError Instr :=
  match (kkOf w).toNat with
  | 0x07 => .ok (.ldVxDt (xOf w))
  | 0x0A => .ok (.ldVxK (xOf w))
  | 0x15 => .ok (.ldDtVx (xOf w))
  | 0x18 => .ok (.ldStVx (xOf w))
  | 0x1E => .ok (.addI (xOf w))
  | 0x29 => .ok (.ldF (xOf w))
  | 0x33 => .ok (.ldB (xOf w))
  | 0x55 => .ok (.ldMemVx (xOf w))
  | 0x65 => .ok (.ldVxMem (xOf w))
  | _    => .error (.unsupportedOpcode w)

/-- Families 0x5 and 0x9 hold one instruction each, whose pattern fixes `w[3:0] = 0` (R74). -/
def decodeFixedZero (i : Instr) (w : Word) : Except DecodeError Instr :=
  match (nOf w).toNat with
  | 0 => .ok i
  | _ => .error (.unsupportedOpcode w)

/-- The instruction a word is, by its family `w[15:12]` and then within the family (R73). -/
def decodeWord (w : Word) : Except DecodeError Instr :=
  match (opOf w).toNat with
  | 0x0 => decodeFamily0 w
  | 0x1 => .ok (.jp (addrOf w))
  | 0x2 => .ok (.call (addrOf w))
  | 0x3 => .ok (.seByte (xOf w) (kkOf w))
  | 0x4 => .ok (.sneByte (xOf w) (kkOf w))
  | 0x5 => decodeFixedZero (.seReg (xOf w) (yOf w)) w
  | 0x6 => .ok (.ldByte (xOf w) (kkOf w))
  | 0x7 => .ok (.addByte (xOf w) (kkOf w))
  | 0x8 => decodeFamily8 w
  | 0x9 => decodeFixedZero (.sneReg (xOf w) (yOf w)) w
  | 0xA => .ok (.ldI (addrOf w))
  | 0xB => .ok (.jpV0 (addrOf w))
  | 0xC => .ok (.rnd (xOf w) (kkOf w))
  | 0xD => .ok (.drw (xOf w) (yOf w) (nOf w))
  | 0xE => decodeFamilyE w
  | _   => decodeFamilyF w

/-- Two bytes as a word, the first being bits 15:8 (20_memory.md R53). -/
def wordOfBytes (b0 b1 : Byte) : Word := b0 ++ b1

/-- The byte at the lower address of a word: bits 15:8 (R53). -/
def highByte (w : Word) : Byte := w.extractLsb' 8 8

/-- The byte at the higher address of a word: bits 7:0 (R53). -/
def lowByte (w : Word) : Byte := w.extractLsb' 0 8

/-- The first instruction of some bytes, and the bytes after it. Every instruction is one word (R70). -/
def decode : List Byte → Except DecodeError (Instr × List Byte)
  | b0 :: b1 :: rest =>
    match decodeWord (wordOfBytes b0 b1) with
    | .ok i    => .ok (i, rest)
    | .error e => .error e
  | _ => .error .truncated

/-! ## The encoder -/

/-- A word of four 4-bit fields: the formats XY and XYN of R71. -/
def packXYN (op x y n : Nibble) : Word := op ++ x ++ y ++ n

/-- A word of two 4-bit fields and a byte: the formats XK and XF of R71. -/
def packXK (op x : Nibble) (kk : Byte) : Word := op ++ x ++ kk

/-- A word of a 4-bit field and an address: the format A of R71. -/
def packA (op : Nibble) (addr : Addr) : Word := op ++ addr

/-- The word of an instruction, written from the pattern column of R76. -/
def encode : Instr → Word
  | .cls          => 0x00E0
  | .ret          => 0x00EE
  | .jp a         => packA 0x1 a
  | .call a       => packA 0x2 a
  | .seByte x kk  => packXK 0x3 x kk
  | .sneByte x kk => packXK 0x4 x kk
  | .seReg x y    => packXYN 0x5 x y 0x0
  | .ldByte x kk  => packXK 0x6 x kk
  | .addByte x kk => packXK 0x7 x kk
  | .ldReg x y    => packXYN 0x8 x y 0x0
  | .orReg x y    => packXYN 0x8 x y 0x1
  | .andReg x y   => packXYN 0x8 x y 0x2
  | .xorReg x y   => packXYN 0x8 x y 0x3
  | .addReg x y   => packXYN 0x8 x y 0x4
  | .subReg x y   => packXYN 0x8 x y 0x5
  | .shr x y      => packXYN 0x8 x y 0x6
  | .subnReg x y  => packXYN 0x8 x y 0x7
  | .shl x y      => packXYN 0x8 x y 0xE
  | .sneReg x y   => packXYN 0x9 x y 0x0
  | .ldI a        => packA 0xA a
  | .jpV0 a       => packA 0xB a
  | .rnd x kk     => packXK 0xC x kk
  | .drw x y n    => packXYN 0xD x y n
  | .skp x        => packXK 0xE x 0x9E
  | .sknp x       => packXK 0xE x 0xA1
  | .ldVxDt x     => packXK 0xF x 0x07
  | .ldVxK x      => packXK 0xF x 0x0A
  | .ldDtVx x     => packXK 0xF x 0x15
  | .ldStVx x     => packXK 0xF x 0x18
  | .addI x       => packXK 0xF x 0x1E
  | .ldF x        => packXK 0xF x 0x29
  | .ldB x        => packXK 0xF x 0x33
  | .ldMemVx x    => packXK 0xF x 0x55
  | .ldVxMem x    => packXK 0xF x 0x65

/-- The two bytes of an instruction as they stand in memory, high byte first (R53). -/
def encodeBytes (i : Instr) : List Byte := [highByte (encode i), lowByte (encode i)]

/-! ## The host's view of a table row -/

/-- The first word of an instruction whose bits are `w`, every bit from `nbits` up being 0. An instruction of this
machine is one 16-bit word (R70), and the table numbers its bits as the spec does, so it is bits 15:0. -/
def tableWord (nbits w : Nat) : Word := BitVec.ofNat 16 (w % 2 ^ nbits)

/-- What the decoder reads from an instruction with the bits `w`, laid out as memory holds it, high byte first. -/
def decodeTableWord (nbits w : Nat) : Option Instr :=
  match decode [highByte (tableWord nbits w), lowByte (tableWord nbits w)] with
  | .ok (i, _) => some i
  | .error _   => none

end Sys2Proof
end

