-- ==== Sys2Proof/Config.lean ====
section
/-!
DEFINITION. What the spec leaves to an implementation. The fixed parameters of spec/00_scope.md R5 are numerals
here; the open parameters of R6 are constants with NO BODY, so that every theorem holds for each value of them
(log entries 1 to 4). The free inputs of a step (R14) are read by the number of the draw, a counter of State.
-/

namespace Sys2Proof

/-- `MEM_SIZE` of R5: the number of memory cells. -/
abbrev Config.memSize : Nat := 4096

/-- `PROGRAM_ORIGIN` of R5: where a program is loaded and where PC starts. -/
abbrev Config.programOrigin : Nat := 0x200

/-- `MAX_PROGRAM` of R5: the longest image `loadProgram` accepts. -/
abbrev Config.maxProgram : Nat := 3584

/-- `STACK_DEPTH` of R5. -/
abbrev Config.stackDepth : Nat := 16

/-- `FB_WIDTH` of R5. -/
abbrev Config.fbWidth : Nat := 64

/-- `FB_CELLS` of R5: 64 columns by 32 rows. -/
abbrev Config.fbCells : Nat := 2048

/-- `FONT_BYTES` of R5. -/
abbrev Config.fontBytes : Nat := 80

/-- `FONT_STRIDE` of R5: bytes per font character. -/
abbrev Config.fontStride : Nat := 5

/-- `FONT_ORIGIN` of R6 (D1, U5): any address with the 80 font bytes inside 0x000 to 0x1FF, that is at most 0x1B0.
DESIGN CHOICE, safe: left free (log entry 1). -/
opaque Config.fontOrigin : Fin 0x1B1

/-- `FONT_TABLE` of R6 (D2, U6): any 80 bytes. DESIGN CHOICE, safe: left free (log entry 2). -/
opaque Config.fontTable : Fin 80 → Byte

/-- `RND` of R6 (D10, U3): the random byte of draw number `k`, any byte.
DESIGN CHOICE, safe: left free (log entry 3). -/
opaque Config.rnd : Nat → Byte

/-- `KEY_SELECT` of R6 (D9, U7): at draw number `k`, with the keypad latch as given, which of the pressed keys
`Fx0A` reports, as a number taken modulo how many are pressed. DESIGN CHOICE, safe: left free (log entry 4). -/
opaque Config.keyChoice : Nat → BitVec 16 → Nat

/-- The simulation default of `FONT_TABLE` (10_state.md R40, D2): the conventional font, from general knowledge.
No meaning reads it; it stands here for tests that draw a glyph. -/
def Config.defaultFontTable : List Byte :=
  [0xF0, 0x90, 0x90, 0x90, 0xF0,  0x20, 0x60, 0x20, 0x20, 0x70,
   0xF0, 0x10, 0xF0, 0x80, 0xF0,  0xF0, 0x10, 0xF0, 0x10, 0xF0] ++
  [0x90, 0x90, 0xF0, 0x10, 0x10,  0xF0, 0x80, 0xF0, 0x10, 0xF0,
   0xF0, 0x80, 0xF0, 0x90, 0xF0,  0xF0, 0x10, 0x20, 0x40, 0x40] ++
  [0xF0, 0x90, 0xF0, 0x90, 0xF0,  0xF0, 0x90, 0xF0, 0x10, 0xF0,
   0xF0, 0x90, 0xF0, 0x90, 0x90,  0xE0, 0x90, 0xE0, 0x90, 0xE0] ++
  [0xF0, 0x80, 0x80, 0x80, 0xF0,  0xE0, 0x90, 0x90, 0x90, 0xE0,
   0xF0, 0x80, 0xF0, 0x80, 0xF0,  0xF0, 0x80, 0xF0, 0x80, 0x80]

end Sys2Proof
end

