-- ==== Sys2Proof/Machine/State.lean ====
section
/-!
DEFINITION. The state of the machine (spec/10_state.md R20), the reasons a step can stop (spec/60_exceptions.md R201,
R202), and the state after reset (spec/70_reset_and_hazards.md R240). Plain data throughout.
-/

namespace Sys2Proof.Machine

/-- `MEM`, as the cells that differ from what they hold after reset, at strictly rising addresses (R37). -/
abbrev Memory := List Host.Cell

/-- `FB`, 2048 cells of one bit; the cell in column `cx` and row `cy` is bit `cy * 64 + cx` (R35). -/
abbrev FrameBuffer := BitVec 2048

/-- The complete state of the machine: R20's record, exactly its fields. -/
structure Record where
  /-- `V`, the sixteen general registers; V15 is VF, the only flag (R21, R22). -/
  v      : Vector Byte 16
  /-- `I`, the index register; bits 15:12 are 0 in every reachable state (R26). -/
  i      : Word
  /-- `PC`, the address of the next instruction word (R23). -/
  pc     : Word
  /-- `STACK`, sixteen return addresses outside `MEM` (R27). -/
  stack  : Vector Word 16
  /-- `SP`, how many entries are in use and the index of the next free one, 0 to 16 (R27, R28). -/
  sp     : Fin 17
  /-- `DT`, the delay timer (R29). -/
  dt     : Byte
  /-- `ST`, the sound timer (R29). -/
  st     : Byte
  /-- `KEY`, the keypad latch; bit `k` is key `k`, 1 is pressed (R34, R39). -/
  key    : BitVec 16
  /-- `FB`, the framebuffer (R35). -/
  fb     : FrameBuffer
  /-- `REDRAW`, sticky (R36). -/
  redraw : Bool
  /-- `MEM` (R37). -/
  mem    : Memory
  deriving DecidableEq, Repr

/-- R20's record, and beside it the one thing a step written as a function needs to read its free inputs. -/
structure State extends Record where
  /-- The MODEL's own field and no part of the machine's record (log entry 5): how many free step inputs, RND and
  KEY_SELECT of R14, have been consumed, so which of the inputs from outside is the next. No statement rests on its
  value. -/
  draws  : Nat
  deriving DecidableEq, Repr

/-- Which index an `OutOfBounds` fault is about: its tag in R202. -/
inductive Region where
  /-- the fetch address (R205) -/
  | code
  /-- the highest address of a data access (R206) -/
  | data
  /-- a key index (R207) -/
  | keypad
  deriving DecidableEq, Repr

/-- The four kinds of fault of R201, a closed set, with the information of R202. A fault changes nothing (R203), so it
carries no state: the machine stands in the state before the step. Each is the spec's own fault, hence safe. -/
inductive Fault where
  /-- Raised by the fetch of every step when PC is above 4094, by `Fx33`, `Fx65`, `Dxyn` when the range of cells
  passes 0xFFF, and by `Ex9E`, `ExA1` when Vx is above 15 (R202 rows 1, 5, 6). Safe. -/
  | outOfBounds (region : Region) (index : Nat)
  /-- Raised by the decode phase for a word that matches no row, and by `Fx55` (R202 row 2). Safe. -/
  | unsupportedOpcode (w : Word) (pc : Word)
  /-- Raised by `2addr` when SP is 16 (R202 row 3). Safe. -/
  | stackOverflow (pc : Word)
  /-- Raised by `00EE` when SP is 0 (R202 row 4). Safe. -/
  | stackUnderflow (pc : Word)
  deriving DecidableEq, Repr

/-- Refusals. No meaning answers with one: the machine executes or faults (R80, R200). -/
inductive Refusal where
  /-- An instruction without a meaning yet, by its mnemonic; raised only by an arm of `exec` not yet written, and no
  arm is. Safe: a refusal proves nothing about the hardware. -/
  | notModelled (mnemonic : String)
  deriving DecidableEq, Repr

/-- The outcome of an instruction or of a step. -/
abbrev Result := Host.Outcome State Fault Refusal

/-- The state `initialize()` leaves (R240): everything 0, PC at the program origin, REDRAW false, and memory holding
the font and zeros, which is what an unlisted cell reads as (`initialByte`), so nothing is listed. -/
def State.reset : State where
  v      := Vector.replicate 16 0
  i      := 0
  pc     := 0x200
  stack  := Vector.replicate 16 0
  sp     := 0
  dt     := 0
  st     := 0
  key    := 0
  fb     := 0
  redraw := false
  mem    := []
  draws  := 0

end Sys2Proof.Machine
end

