-- ==== Sys2Proof/Machine/Ops.lean ====
section
/-!
DEFINITION. The named operations over registers, memory, the stack and PC, raising a fault, and the phases of a step
around Execute: fetch and tick (spec/00_scope.md R10, spec/20_memory.md, spec/70_reset_and_hazards.md R250).
-/

namespace Sys2Proof.Machine

/-! ## Registers (R21 to R29) -/

/-- `V[r]` -/
def State.reg (s : State) (r : Reg) : Byte := s.v[r.toNat]'r.isLt

/-- `V[r] <- b` -/
def State.setReg (s : State) (r : Reg) (b : Byte) : State := { s with v := s.v.set r.toNat b r.isLt }

/-- The number of VF, the flag register (R22). -/
def vf : Reg := 15

/-- `I <- a` -/
def State.setI (s : State) (a : Word) : State := { s with i := a }

/-- `PC <- a` -/
def State.setPc (s : State) (a : Word) : State := { s with pc := a }

/-- `DT <- b` -/
def State.setDt (s : State) (b : Byte) : State := { s with dt := b }

/-- `ST <- b` -/
def State.setSt (s : State) (b : Byte) : State := { s with st := b }

/-- `KEY <- k`, wholesale (R34). -/
def State.setKey (s : State) (k : BitVec 16) : State := { s with key := k }

/-- `FB <- f`, wholesale. -/
def State.setFb (s : State) (f : FrameBuffer) : State := { s with fb := f }

/-- `REDRAW <- b` -/
def State.setRedraw (s : State) (b : Bool) : State := { s with redraw := b }

/-- `MEM <- m`, wholesale. -/
def State.setMem (s : State) (m : Memory) : State := { s with mem := m }

/-- One free step input is consumed (R14, log entry 5). -/
def State.countDraw (s : State) : State := { s with draws := s.draws + 1 }

/-! ## The return stack (R27) -/

/-- `STACK[SP] <- a`, then SP up by one; for an SP below 16. -/
def State.push (s : State) (a : Word) (h : s.sp.val < 16) : State :=
  { s with stack := s.stack.set s.sp.val a h, sp := ⟨s.sp.val + 1, by omega⟩ }

/-- `STACK[SP - 1]`, the entry a pop reads. -/
def State.topEntry (s : State) : Word := s.stack[s.sp.val - 1]'(by have := s.sp.isLt; omega)

/-- SP down by one; the entry stays in place (R27, D21). -/
def State.pop (s : State) : State := { s with sp := ⟨s.sp.val - 1, by have := s.sp.isLt; omega⟩ }

/-! ## Memory (R37, R50 to R59) -/

/-- The address of the font table (R6, R40). -/
def fontOrigin : Nat := Config.fontOrigin.val

/-- Byte `k` of the font table (R40). -/
def fontByte (k : Fin 80) : Byte := Config.fontTable k

/-- What a cell holds after reset (R240): a font byte at FONT_ORIGIN to FONT_ORIGIN + 79, and 0 elsewhere. The font lies
below 0x200 (R6, R51), so the test of 0x200 first changes nothing. -/
def initialByte (a : Nat) : Byte :=
  if a < 0x200 then
    if h : fontOrigin ≤ a ∧ a < fontOrigin + 80 then fontByte ⟨a - fontOrigin, by omega⟩ else 0
  else 0

/-- `MemRead(a, 1)`. Every rule checks the bound first (R10), so an address above 0xFFF never comes here. -/
def Memory.read : Memory → Nat → Byte
  | [], a          => initialByte a
  | (k, b) :: m, a => if k = a then b else Memory.read m a

/-- The cells but the one at `a`. -/
def Memory.erase (m : Memory) (a : Nat) : Memory := m.filter (fun c => c.1 != a)

/-- A cell put where its address belongs among rising addresses. -/
def Memory.insertCell : Memory → Nat → Byte → Memory
  | [], a, b          => [(a, b)]
  | (k, c) :: m, a, b => if a < k then (a, b) :: (k, c) :: m else (k, c) :: Memory.insertCell m a b

/-- `MemWrite(a, 1, b)`. Writing what the cell holds after reset removes its entry, so that equal memories are equal
data. -/
def Memory.write (m : Memory) (a : Nat) (b : Byte) : Memory :=
  if b = initialByte a then Memory.erase m a else Memory.insertCell (Memory.erase m a) a b

/-- Bytes stored at `a`, `a + 1`, and so on, in that order. -/
def Memory.writeBytes : Memory → Nat → List Byte → Memory
  | m, _, []      => m
  | m, a, b :: bs => Memory.writeBytes (Memory.write m a b) (a + 1) bs

/-- The bytes at `a`, `a + 1`, ..., `a + n - 1`, read in that order. -/
def Memory.readBytes (m : Memory) (a : Nat) : Nat → List Byte
  | 0     => []
  | n + 1 => Memory.read m a :: Memory.readBytes m (a + 1) n

/-- Addresses strictly rising. -/
def Memory.rising : Memory → Bool
  | []                       => true
  | [_]                      => true
  | (a, _) :: (b, c) :: rest => decide (a < b) && Memory.rising ((b, c) :: rest)

/-- The canonical form: addresses strictly rising, each that of a cell of the machine (R50), and no entry equal to what
an unlisted cell reads as. -/
def Memory.wf (m : Memory) : Bool :=
  Memory.rising m && m.all (fun c => decide (c.1 < Config.memSize) && (c.2 != initialByte c.1))

/-- The byte at an address, as the machine in state `s` reads it. -/
def State.byteAt (s : State) (a : Nat) : Byte := Memory.read s.mem a

/-! ## Raising a fault (R201, R203, R215) -/

/-- `raise f`: the step ends and its outcome is the fault. Nothing is saved, no mode changes, control goes nowhere, and
the state stands as it was before the step (R203, R215), so there is no state to give back. There is no return from a
fault in the machine (R216). -/
def raise (f : Fault) : Result := .fault f

/-- A data access to `count` cells from `base`: checked whole before any effect (R55). With no cell to touch nothing is
checked. -/
def withDataRange (base count : Nat) (k : Result) : Result :=
  if 1 ≤ count ∧ base + count - 1 > 4095 then raise (.outOfBounds .data (base + count - 1)) else k

/-! ## How an instruction leaves PC (R24) -/

/-- The sequential class: `PC <- PC + 2`. -/
def sequential (s : State) : Result := .next (s.setPc (s.pc + 2))

/-- The conditional-skip class: `PC + 4` if the condition holds, `PC + 2` otherwise. -/
def skipIf (c : Bool) (s : State) : Result := .next (s.setPc (if c then s.pc + 4 else s.pc + 2))

/-- The jump classes: PC set to the target exactly, unchecked (R104). -/
def jumpTo (target : Word) (s : State) : Result := .next (s.setPc target)

/-! ## The phases around Execute (R250) -/

/-- Fetch: the word at PC and PC + 1, first byte high; `OutOfBounds(code, PC)` when PC is above 4094 (R52, R53). -/
def fetch (s : State) : Except Fault Word :=
  if s.pc.toNat > 4094 then .error (.outOfBounds .code s.pc.toNat)
  else .ok (wordOfBytes (s.byteAt s.pc.toNat) (s.byteAt (s.pc.toNat + 1)))

/-- Fetch, then decode: a word that matches no row raises `UnsupportedOpcode(w, PC)` (R77, R208). -/
def fetchInstr (s : State) : Except Fault Instr :=
  match fetch s with
  | .error f => .error f
  | .ok w =>
    match decodeWord w with
    | .error _ => .error (.unsupportedOpcode w s.pc)
    | .ok i    => .ok i

/-- A timer counts down by one and stops at 0 (R29). -/
def countDown (b : Byte) : Byte := if b.toNat > 0 then b - 1 else b

/-- The timer tick after Execute: both timers count down, DT first (R33). -/
def tick (s : State) : State := (s.setDt (countDown s.dt)).setSt (countDown s.st)

/-- After Execute: the timers tick if it completed, and a fault leaves everything as it was (R203, R250). -/
def finish : Result → Result
  | .next s    => .next (tick s)
  | .fault f   => .fault f
  | .refused r => .refused r

/-! ## Placing a program's word -/

/-- The state with the instruction word of bits `w` where the next step fetches: at PC and PC + 1, high byte first. A PC
from which no fetch is possible (R52) is set to the program origin first. -/
def placeWord (s : State) (nbits w : Nat) : State :=
  let p := if s.pc.toNat > 4094 then s.setPc (BitVec.ofNat 16 Config.programOrigin) else s
  p.setMem (Memory.writeBytes p.mem p.pc.toNat [highByte (tableWord nbits w), lowByte (tableWord nbits w)])

end Sys2Proof.Machine
end

