-- ==== Sys2Proof/Machine/Flags.lean ====
section
/-!
DEFINITION. Every flag computation of the spec (spec/10_state.md R22) and the order in which the flag and the result are
written (spec/42_alu.md R126, R127). VF is the only flag; a flag is the byte 0 or 1.
-/

namespace Sys2Proof.Machine

/-- A flag value as VF holds it. -/
def flagByte (b : Bool) : Byte := if b then 1 else 0

/-- Carry of an addition: the true sum is above 255 (R126, R128). -/
def carryFlag (a b : Byte) : Byte := flagByte (decide (a.toNat + b.toNat > 255))

/-- The strict unsigned comparison of `8xy5` and `8xy7`, 0 at equality (R126, R129, R131). -/
def greaterFlag (a b : Byte) : Byte := flagByte (decide (a.toNat > b.toNat))

/-- The bit a right shift moves out (R130). -/
def lowBitFlag (a : Byte) : Byte := flagByte (a.getLsbD 0)

/-- The bit a left shift moves out (R132). -/
def highBitFlag (a : Byte) : Byte := flagByte (a.getLsbD 7)

/-- The two writes of `8xy4` to `8xyE` (R127, D3): first `VF <- flag`, computed from the registers as the instruction
found them, then `V[x] <- result`, computed from the registers as the first write left them. -/
def flagThenResult (flag : State → Byte) (x : Reg) (result : State → Byte) (s : State) : State :=
  let s1 := s.setReg vf (flag s)
  s1.setReg x (result s1)

end Sys2Proof.Machine
end

