-- ==== Sys2Proof/Machine/Operands.lean ====
section
/-!
DEFINITION. The operand forms beyond a register and an immediate: the implicit address I + k, the offset jump, the font
character, decimal digits, a key named by a register, and the two free inputs of a step.
-/

namespace Sys2Proof.Machine

/-- An address field as a 16-bit value, zero-extended (R72, R150). -/
def zextAddr (a : Addr) : Word := a.setWidth 16

/-- A byte as a 16-bit value, zero-extended. -/
def zextByte (b : Byte) : Word := b.setWidth 16

/-- `addr + V0`, at most 0x10FE, not reduced (R103). -/
def offsetTarget (s : State) (a : Addr) : Word := zextAddr a + zextByte (s.reg 0)

/-- The effective address `I + k` of a data access, a natural number, never wrapped (R157). -/
def effAddr (s : State) (k : Nat) : Nat := s.i.toNat + k

/-- `(I + V[x]) mod 4096` (R151). -/
def indexSum (s : State) (x : Reg) : Word := BitVec.ofNat 16 ((s.i.toNat + (s.reg x).toNat) % 4096)

/-- `FONT_ORIGIN + 5 * V[x]`, all eight bits of Vx (R152, D22). -/
def fontAddr (s : State) (x : Reg) : Word := BitVec.ofNat 16 (fontOrigin + 5 * (s.reg x).toNat)

/-- The hundreds, tens and ones of a byte (R153). -/
def decimalDigits (b : Byte) : List Byte :=
  [BitVec.ofNat 8 (b.toNat / 100), BitVec.ofNat 8 (b.toNat / 10 % 10), BitVec.ofNat 8 (b.toNat % 10)]

/-- Whether key `k` is down (R34). -/
def State.keyDown (s : State) (k : Nat) : Bool := s.key.getLsbD k

/-- The key named by the VALUE of Vx; `OutOfBounds(keypad, Vx)` when it is above 15 (R180, R181, R186). -/
def withKey (x : Reg) (s : State) (k : Bool → Result) : Result :=
  if (s.reg x).toNat > 15 then raise (.outOfBounds .keypad (s.reg x).toNat)
  else k (s.keyDown (s.reg x).toNat)

/-- The set `P` of R182, as the pressed keys in rising order. -/
def pressedKeys (key : BitVec 16) : List Nat := (List.range 16).filter (fun k => key.getLsbD k)

/-- `KEY_SELECT(P)`: one member of a non-empty set, which one being free (R6, D9, U7). With one member it is that one. -/
def selectKey (draw : Nat) (key : BitVec 16) : List Nat → Nat
  | []     => 0
  | [k]    => k
  | k :: l => (k :: l).getD (Config.keyChoice draw key % (k :: l).length) k

/-- `draw RND`: the free byte of the next draw (R6, D10). -/
def drawRnd (s : State) : Byte := Config.rnd s.draws

end Sys2Proof.Machine
end

