-- ==== Sys2Proof/Machine/Alu.lean ====
section
/-!
DEFINITION. Register load, arithmetic and logic (spec/42_alu.md): `6xkk`, `7xkk`, `8xy0` to `8xyE`, `Cxkk`. All are
sequential and none faults. Arithmetic on bytes is exact modulo 256 (R126).
-/

namespace Sys2Proof.Machine

/-- `6xkk` (R120). -/
def execLdByte (x : Reg) (kk : Byte) (s : State) : Result := sequential (s.setReg x kk)

/-- `7xkk` (R121): VF is not written. -/
def execAddByte (x : Reg) (kk : Byte) (s : State) : Result := sequential (s.setReg x (s.reg x + kk))

/-- `8xy0` (R122). -/
def execLdReg (x y : Reg) (s : State) : Result := sequential (s.setReg x (s.reg y))

/-- `8xy1` (R123). -/
def execOrReg (x y : Reg) (s : State) : Result := sequential (s.setReg x (s.reg x ||| s.reg y))

/-- `8xy2` (R124). -/
def execAndReg (x y : Reg) (s : State) : Result := sequential (s.setReg x (s.reg x &&& s.reg y))

/-- `8xy3` (R125). -/
def execXorReg (x y : Reg) (s : State) : Result := sequential (s.setReg x (s.reg x ^^^ s.reg y))

/-- `8xy4` (R128). -/
def execAddReg (x y : Reg) (s : State) : Result :=
  sequential (flagThenResult (fun t => carryFlag (t.reg x) (t.reg y)) x (fun t => t.reg x + t.reg y) s)

/-- `8xy5` (R129). -/
def execSubReg (x y : Reg) (s : State) : Result :=
  sequential (flagThenResult (fun t => greaterFlag (t.reg x) (t.reg y)) x (fun t => t.reg x - t.reg y) s)

/-- `8xy6` (R130): Vx itself is shifted, `y` is ignored. -/
def execShr (x _y : Reg) (s : State) : Result :=
  sequential (flagThenResult (fun t => lowBitFlag (t.reg x)) x (fun t => t.reg x >>> 1) s)

/-- `8xy7` (R131). -/
def execSubnReg (x y : Reg) (s : State) : Result :=
  sequential (flagThenResult (fun t => greaterFlag (t.reg y) (t.reg x)) x (fun t => t.reg y - t.reg x) s)

/-- `8xyE` (R132): Vx itself is shifted, `y` is ignored. -/
def execShl (x _y : Reg) (s : State) : Result :=
  sequential (flagThenResult (fun t => highBitFlag (t.reg x)) x (fun t => t.reg x <<< 1) s)

/-- `Cxkk` (R133): the byte drawn is free. -/
def execRnd (x : Reg) (kk : Byte) (s : State) : Result :=
  sequential ((s.setReg x (drawRnd s &&& kk)).countDraw)

end Sys2Proof.Machine
end

