-- ==== Sys2Proof/Machine/Control.lean ====
section
/-!
DEFINITION. Control transfer (spec/40_control_flow.md): `00EE`, `1addr`, `2addr`, `Baddr`.
-/

namespace Sys2Proof.Machine

/-- `00EE` (R100). -/
def execRet (s : State) : Result :=
  if s.sp.val = 0 then raise (.stackUnderflow s.pc) else jumpTo s.topEntry s.pop

/-- `1addr` (R101). -/
def execJp (addr : Addr) (s : State) : Result := jumpTo (zextAddr addr) s

/-- `2addr` (R102, D4): the entry pushed is the address after the call. -/
def execCall (addr : Addr) (s : State) : Result :=
  if h : s.sp.val < 16 then jumpTo (zextAddr addr) (s.push (s.pc + 2) h) else raise (.stackOverflow s.pc)

/-- `Baddr` (R103). -/
def execJpV0 (addr : Addr) (s : State) : Result := jumpTo (offsetTarget s addr) s

end Sys2Proof.Machine
end

