-- ==== Sys2Proof/Machine/Display.lean ====
section
/-!
DEFINITION. The display (spec/44_display.md): `00E0`, `Dxyn`.
-/

namespace Sys2Proof.Machine

/-- `00E0` (R170): REDRAW is set even if nothing was lit. -/
def execCls (s : State) : Result := sequential ((s.setFb 0).setRedraw true)

/-- The target cell of a sprite bit, wrapped through the linear buffer only (R171, R173). -/
def cellIndex (px py row col : Nat) : Nat := ((py + row) * 64 + (px + col)) % 2048

/-- One sprite bit that is 1: the cell is toggled, and a cell that was 1 is a collision (R171, R174). -/
def plot (d : FrameBuffer × Bool) (idx : Nat) : FrameBuffer × Bool :=
  (d.1 ^^^ BitVec.twoPow 2048 idx, d.2 || d.1.getLsbD idx)

/-- One sprite row, columns in ascending order; bit 7 of the byte is column 0 (R171, R175). -/
def drawRow (b : Byte) (px py row : Nat) (d : FrameBuffer × Bool) : FrameBuffer × Bool :=
  (List.range 8).foldl (fun e col => if b.getLsbD (7 - col) then plot e (cellIndex px py row col) else e) d

/-- The sprite's rows from number `row` on, in ascending order (R171). -/
def drawRows (px py : Nat) : Nat → List Byte → FrameBuffer × Bool → FrameBuffer × Bool
  | _, [], d        => d
  | row, b :: bs, d => drawRows px py (row + 1) bs (drawRow b px py row d)

/-- The framebuffer and the collision flag after a sprite is drawn with its corner at `(px, py)`. -/
def drawSprite (px py : Nat) (rows : List Byte) (fb : FrameBuffer) : FrameBuffer × Bool :=
  drawRows px py 0 rows (fb, false)

/-- `Dxyn` (R171, R172, D14): the coordinates are read once, before VF is written. -/
def execDrw (x y : Reg) (n : Nibble) (s : State) : Result :=
  withDataRange (effAddr s 0) n.toNat
    (let d := drawSprite (s.reg x).toNat (s.reg y).toNat (Memory.readBytes s.mem (effAddr s 0) n.toNat) s.fb
     sequential (((s.setReg vf (flagByte d.2)).setFb d.1).setRedraw true))

end Sys2Proof.Machine
end

