-- ==== Sys2Proof/Machine/IndexMemory.lean ====
section
/-!
DEFINITION. The index register and memory (spec/43_index_memory.md): `Aaddr`, `Fx1E`, `Fx29`, `Fx33`, `Fx55`, `Fx65`.
-/

namespace Sys2Proof.Machine

/-- `Aaddr` (R150). -/
def execLdI (addr : Addr) (s : State) : Result := sequential (s.setI (zextAddr addr))

/-- `Fx1E` (R151): 12-bit wrap, VF is not written. -/
def execAddI (x : Reg) (s : State) : Result := sequential (s.setI (indexSum s x))

/-- `Fx29` (R152). -/
def execLdF (x : Reg) (s : State) : Result := sequential (s.setI (fontAddr s x))

/-- `Fx33` (R153): three digits stored at I, I + 1, I + 2; I is unchanged. -/
def execLdB (x : Reg) (s : State) : Result :=
  withDataRange (effAddr s 0) 3
    (sequential (s.setMem (Memory.writeBytes s.mem (effAddr s 0) (decimalDigits (s.reg x)))))

/-- `Fx55` (R155, R78): always `UnsupportedOpcode(w, PC)`, with `w` the word it was decoded from. -/
def execLdMemVx (x : Reg) (s : State) : Result :=
  raise (.unsupportedOpcode (encode (.ldMemVx x)) s.pc)

/-- Registers loaded in ascending order, `V[r] <- MEM[I + r]` for the numbers listed (R156). -/
def loadRegs (s : State) (rs : List Nat) : State :=
  rs.foldl (fun t r => t.setReg (BitVec.ofNat 4 r) (s.byteAt (effAddr s r))) s

/-- `Fx65` (R156): V0 to Vx from I on; I is unchanged. -/
def execLdVxMem (x : Reg) (s : State) : Result :=
  withDataRange (effAddr s 0) (x.toNat + 1) (sequential (loadRegs s (List.range (x.toNat + 1))))

end Sys2Proof.Machine
end

