-- ==== Sys2Proof/Machine/KeypadTimers.lean ====
section
/-!
DEFINITION. The keypad and the timers (spec/45_keypad_timers.md): `Ex9E`, `ExA1`, `Fx0A`, `Fx07`, `Fx15`, `Fx18`.
-/

namespace Sys2Proof.Machine

/-- `Ex9E` (R180). -/
def execSkp (x : Reg) (s : State) : Result := withKey x s (fun down => skipIf down s)

/-- `ExA1` (R181). -/
def execSknp (x : Reg) (s : State) : Result := withKey x s (fun down => skipIf (!down) s)

/-- `Fx0A` (R182, R187): with no key down nothing changes and PC stays, a waiting step; otherwise Vx receives one of
the pressed keys, which one being free. -/
def execLdVxK (x : Reg) (s : State) : Result :=
  match pressedKeys s.key with
  | []     => .next s
  | k :: l => sequential ((s.setReg x (BitVec.ofNat 8 (selectKey s.draws s.key (k :: l)))).countDraw)

/-- `Fx07` (R183): the value the previous step left. -/
def execLdVxDt (x : Reg) (s : State) : Result := sequential (s.setReg x s.dt)

/-- `Fx15` (R184): the tick of the same step then counts the new value down. -/
def execLdDtVx (x : Reg) (s : State) : Result := sequential (s.setDt (s.reg x))

/-- `Fx18` (R185): the tick of the same step then counts the new value down. -/
def execLdStVx (x : Reg) (s : State) : Result := sequential (s.setSt (s.reg x))

end Sys2Proof.Machine
end

