-- ==== Sys2Proof/Machine/Skips.lean ====
section
/-!
DEFINITION. The conditional skips on registers (spec/41_skips.md): `3xkk`, `4xkk`, `5xy0`, `9xy0`.
-/

namespace Sys2Proof.Machine

/-- `3xkk` (R110). -/
def execSeByte (x : Reg) (kk : Byte) (s : State) : Result := skipIf (s.reg x == kk) s

/-- `4xkk` (R111). -/
def execSneByte (x : Reg) (kk : Byte) (s : State) : Result := skipIf (s.reg x != kk) s

/-- `5xy0` (R112). -/
def execSeReg (x y : Reg) (s : State) : Result := skipIf (s.reg x == s.reg y) s

/-- `9xy0` (R113). -/
def execSneReg (x y : Reg) (s : State) : Result := skipIf (s.reg x != s.reg y) s

end Sys2Proof.Machine
end

