-- ==== Sys2Proof/Machine/Step.lean ====
section
/-!
DEFINITION. One step, `step()` of spec/70_reset_and_hazards.md R250: fetch and decode, execute, tick the timers.
-/

namespace Sys2Proof.Machine

/-- Exactly one fetch, decode, execute and timer tick; the first phase that raises ends the step with its fault (R213,
R250). -/
def step (s : State) : Host.Outcome State Fault Refusal :=
  match fetchInstr s with
  | .error f => raise f
  | .ok i    => finish (exec i s)

/-- The state with that instruction word where the next step fetches (log entry 9). -/
def State.withFetchWord (s : State) (nbits w : Nat) : State := placeWord s nbits w

end Sys2Proof.Machine
end

