-- ==== Sys2Proof/Machine/HostOps.lean ====
section
/-!
DEFINITION. The public surface besides `step()` (spec/70_reset_and_hazards.md R240 to R248): the operations of the host,
each one atomic transition between steps, and the outcome of a step as it is reported to the host (R251).
-/

namespace Sys2Proof.Machine

/-- The errors of host operations, never the outcome of a step (R201, R211). -/
inductive HostError where
  /-- `loadProgram` was given more than 3584 bytes. -/
  | programTooLarge
  /-- `setKeys` was given, in its software form, a snapshot that is not 16 elements long. -/
  | invalidInput
  deriving DecidableEq, Repr

/-- `initialize()` (R240, R241): from any state, R20's record after reset. The free inputs still to come are no part of
it, so inputs read after a reset are fresh (log entry 5). -/
def initializeOp (s : State) : State := { s with toRecord := State.reset.toRecord }

/-- `loadProgram(bytes)` (R244): the bytes from 0x200 on, and nothing else; too many change nothing. -/
def loadProgram (bytes : List Byte) (s : State) : Except HostError State :=
  if bytes.length > Config.maxProgram then .error .programTooLarge
  else .ok (s.setMem (Memory.writeBytes s.mem Config.programOrigin bytes))

/-- `setKeys(snapshot)` in hardware form, 16 bits, bit `k` for key `k` (R245, D18). -/
def setKeys (snapshot : BitVec 16) (s : State) : State := s.setKey snapshot

/-- The latch word of a list of booleans, element `k` for key `k`. -/
def latchWord (snapshot : List Bool) : BitVec 16 :=
  snapshot.foldr (fun b w => (w <<< 1) ||| (if b then 1 else 0)) 0

/-- `setKeys(snapshot)` in the document's software form, where a length other than 16 is a usage error (R211, R245). -/
def setKeysList (snapshot : List Bool) (s : State) : Except HostError State :=
  if snapshot.length = 16 then .ok (setKeys (latchWord snapshot) s) else .error .invalidInput

/-- `readFramebuffer()` (R246): the 2048 bits; it changes nothing. -/
def readFramebuffer (s : State) : FrameBuffer := s.fb

/-- `clearRedrawFlag()` (R247). -/
def clearRedrawFlag (s : State) : State := s.setRedraw false

/-- Whether the next step would be a waiting one: PC points at an `Fx0A` and no key is down (R187, R38). -/
def awaitingKey (s : State) : Bool :=
  match fetchInstr s with
  | .ok (.ldVxK _) => (pressedKeys s.key).isEmpty
  | _              => false

/-- What `step()` reports to the host (R251). -/
inductive StepOutcome where
  /-- an instruction executed to completion; the value of REDRAW after the step -/
  | retired (redraw : Bool)
  /-- the instruction was `Fx0A` and no key was down; the value of REDRAW after the step -/
  | waiting (redraw : Bool)
  /-- a phase raised -/
  | fault (f : Fault)
  /-- never the case: no instruction is refused -/
  | refused (r : Refusal)
  deriving DecidableEq, Repr

/-- The outcome of the step from `s` (R251): REDRAW is reported as it stands after the step, sticky (R36, D12). -/
def stepOutcome (s : State) : StepOutcome :=
  match step s with
  | .next t    => if awaitingKey s then .waiting t.redraw else .retired t.redraw
  | .fault f   => .fault f
  | .refused r => .refused r

/-- Every operation of the public surface (R3, R248). -/
inductive Operation where
  | initializeMachine
  | loadProgram (bytes : List Byte)
  | setKeys (snapshot : BitVec 16)
  | step
  | readFramebuffer
  | clearRedrawFlag
  deriving DecidableEq, Repr

/-- The transition an operation makes (R13, R61). An operation that fails, or a step that faults, changes nothing (R203,
R211). -/
def operate : Operation → State → State
  | .initializeMachine, s => initializeOp s
  | .loadProgram bytes, s =>
    match Sys2Proof.Machine.loadProgram bytes s with
    | .ok t    => t
    | .error _ => s
  | .setKeys snapshot, s  => Sys2Proof.Machine.setKeys snapshot s
  | .step, s              =>
    match Sys2Proof.Machine.step s with
    | .next t => t
    | _       => s
  | .readFramebuffer, s   => s
  | .clearRedrawFlag, s   => Sys2Proof.Machine.clearRedrawFlag s

end Sys2Proof.Machine
end

