-- ==== Sys2Proof/Safety.lean ====
section
/-!
DEFINITION. The terms claims are stated in: the parts of a state and what leaves them unchanged, the fault conditions as
spec/60_exceptions.md R202 tabulates them, safe steps and the end of a run, the invariant, and reachable states.
-/

namespace Sys2Proof.Machine

/-! ## Frames -/

/-- Every part of a state: R20's fields, one element at a time, and, no part of the machine, the model's counter of free
inputs consumed (log entry 5). -/
inductive Part where
  | reg (r : Reg)
  | index
  | pc
  | stackEntry (k : Fin 16)
  | stackPointer
  | delayTimer
  | soundTimer
  | key (k : Fin 16)
  | cell (c : Fin 2048)
  | redraw
  | memory (a : Nat)
  | draws
  deriving DecidableEq, Repr

/-- The value of a part as a number; memory through the machine's own read of one byte. -/
def Part.value : Part → State → Nat
  | .reg r, s        => (s.reg r).toNat
  | .index, s        => s.i.toNat
  | .pc, s           => s.pc.toNat
  | .stackEntry k, s => s.stack[k].toNat
  | .stackPointer, s => s.sp.val
  | .delayTimer, s   => s.dt.toNat
  | .soundTimer, s   => s.st.toNat
  | .key k, s        => (s.key.getLsbD k.val).toNat
  | .cell c, s       => (s.fb.getLsbD c.val).toNat
  | .redraw, s       => s.redraw.toNat
  | .memory a, s     => (s.byteAt a).toNat
  | .draws, s        => s.draws

/-- Every part but those of `W` has in `t` the value it has in `s`: the closed world of effects (R7). -/
def UnchangedBut (W : Part → Prop) (s t : State) : Prop := ∀ p : Part, ¬ W p → p.value t = p.value s

/-! ## Which registers an instruction writes, and where it leaves PC -/

/-- The six instructions that write VF as a side effect (R22). -/
def writesFlag : Instr → Bool
  | .addReg _ _ | .subReg _ _ | .shr _ _ | .subnReg _ _ | .shl _ _ | .drw _ _ _ => true
  | .cls | .ret | .jp _ | .call _ | .seByte _ _ | .sneByte _ _ | .seReg _ _ | .ldByte _ _ | .addByte _ _ | .ldReg _ _
  | .orReg _ _ | .andReg _ _ | .xorReg _ _ | .sneReg _ _ | .ldI _ | .jpV0 _ | .rnd _ _ | .skp _ | .sknp _ | .ldVxDt _
  | .ldVxK _ | .ldDtVx _ | .ldStVx _ | .addI _ | .ldF _ | .ldB _ | .ldMemVx _ | .ldVxMem _ => false

/-- Whether register `r` is a destination of an instruction by its field `x`; `Fx65` has the range V0 to Vx (R21). -/
def isDestination : Instr → Reg → Bool
  | .ldByte x _, r | .addByte x _, r | .ldReg x _, r | .orReg x _, r | .andReg x _, r | .xorReg x _, r
  | .addReg x _, r | .subReg x _, r | .shr x _, r | .subnReg x _, r | .shl x _, r | .rnd x _, r | .ldVxDt x, r
  | .ldVxK x, r => r == x
  | .ldVxMem x, r => decide (r.toNat ≤ x.toNat)
  | .cls, _ | .ret, _ | .jp _, _ | .call _, _ | .seByte _ _, _ | .sneByte _ _, _ | .seReg _ _, _ | .sneReg _ _, _
  | .ldI _, _ | .jpV0 _, _ | .drw _ _ _, _ | .skp _, _ | .sknp _, _ | .ldDtVx _, _ | .ldStVx _, _ | .addI _, _
  | .ldF _, _ | .ldB _, _ | .ldMemVx _, _ => false

/-- PC after an instruction that completes from `s`, by the classes of R24. -/
def pcAfter : Instr → State → Word
  | .seByte x kk, s  => if s.reg x = kk then s.pc + 4 else s.pc + 2
  | .sneByte x kk, s => if s.reg x ≠ kk then s.pc + 4 else s.pc + 2
  | .seReg x y, s    => if s.reg x = s.reg y then s.pc + 4 else s.pc + 2
  | .sneReg x y, s   => if s.reg x ≠ s.reg y then s.pc + 4 else s.pc + 2
  | .skp x, s        => if s.key.getLsbD (s.reg x).toNat = true then s.pc + 4 else s.pc + 2
  | .sknp x, s       => if s.key.getLsbD (s.reg x).toNat = false then s.pc + 4 else s.pc + 2
  | .jp a, _         => BitVec.ofNat 16 a.toNat
  | .jpV0 a, s       => BitVec.ofNat 16 (a.toNat + (s.reg 0).toNat)
  | .call a, _       => BitVec.ofNat 16 a.toNat
  | .ret, s          => s.stack.toList.getD (s.sp.val - 1) 0
  | .ldVxK _, s      => if s.key ≠ 0 then s.pc + 2 else s.pc
  | .cls, s | .ldByte _ _, s | .addByte _ _, s | .ldReg _ _, s | .orReg _ _, s | .andReg _ _, s | .xorReg _ _, s
  | .addReg _ _, s | .subReg _ _, s | .shr _ _, s | .subnReg _ _, s | .shl _ _, s | .ldI _, s | .rnd _ _, s
  | .drw _ _ _, s | .ldVxDt _, s | .ldDtVx _, s | .ldStVx _, s | .addI _, s | .ldF _, s | .ldB _, s | .ldMemVx _, s
  | .ldVxMem _, s => s.pc + 2

/-! ## Sprites -/

/-- Cell `c` is hit by a bit that is 1 of the sprite of `Dxyn`: row `row` is the byte at I + row, bit 7 is column 0, and
the cell index wraps through the linear buffer only (R171, R173, R175). -/
def SpriteCell (s : State) (x y : Reg) (n : Nibble) (c : Nat) : Prop :=
  ∃ row col, row < n.toNat ∧ col < 8 ∧ (s.byteAt (s.i.toNat + row)).getLsbD (7 - col) = true ∧
    (((s.reg y).toNat + row) * 64 + ((s.reg x).toNat + col)) % 2048 = c

/-! ## Fault conditions, as tabulated -/

/-- The fault the Execute phase of an instruction raises, by rows 2 to 6 of R202; `none` when it completes. -/
def executeFault : Instr → State → Option Fault
  | .ret, s       => if s.sp.val = 0 then some (.stackUnderflow s.pc) else none
  | .call _, s    => if s.sp.val = 16 then some (.stackOverflow s.pc) else none
  | .drw _ _ n, s =>
    if 1 ≤ n.toNat ∧ s.i.toNat + n.toNat - 1 > 4095 then some (.outOfBounds .data (s.i.toNat + n.toNat - 1)) else none
  | .ldB _, s     => if s.i.toNat + 2 > 4095 then some (.outOfBounds .data (s.i.toNat + 2)) else none
  | .ldVxMem x, s =>
    if s.i.toNat + x.toNat > 4095 then some (.outOfBounds .data (s.i.toNat + x.toNat)) else none
  | .skp x, s     => if (s.reg x).toNat > 15 then some (.outOfBounds .keypad (s.reg x).toNat) else none
  | .sknp x, s    => if (s.reg x).toNat > 15 then some (.outOfBounds .keypad (s.reg x).toNat) else none
  | .ldMemVx x, s => some (.unsupportedOpcode (encode (.ldMemVx x)) s.pc)
  | .cls, _ | .jp _, _ | .seByte _ _, _ | .sneByte _ _, _ | .seReg _ _, _ | .ldByte _ _, _ | .addByte _ _, _
  | .ldReg _ _, _ | .orReg _ _, _ | .andReg _ _, _ | .xorReg _ _, _ | .addReg _ _, _ | .subReg _ _, _ | .shr _ _, _
  | .subnReg _ _, _ | .shl _ _, _ | .sneReg _ _, _ | .ldI _, _ | .jpV0 _, _ | .rnd _ _, _ | .ldVxDt _, _
  | .ldVxK _, _ | .ldDtVx _, _ | .ldStVx _, _ | .addI _, _ | .ldF _, _ => none

/-- The word at PC and PC + 1 as a number, first byte high (R52). -/
def wordNumberAt (s : State) : Nat := (s.byteAt s.pc.toNat).toNat * 256 + (s.byteAt (s.pc.toNat + 1)).toNat

/-- The fault a step raises, the first its phases meet in the order Fetch, Decode, Execute (R202, R213). -/
def stepFault (s : State) : Option Fault :=
  if s.pc.toNat > 4094 then some (.outOfBounds .code s.pc.toNat)
  else
    match decodeWord (BitVec.ofNat 16 (wordNumberAt s)) with
    | .error _ => some (.unsupportedOpcode (BitVec.ofNat 16 (wordNumberAt s)) s.pc)
    | .ok i    => executeFault i s

/-! ## Safe steps and runs -/

/-- The next step completes (a waiting step included). -/
def SafeStep (s : State) : Prop := ∃ t, step s = .next t

/-- The conventional end of a run: PC holds an address `a` at which the word `0x1000 + a` stands (R252, D29). -/
def AtSelfJump (s : State) : Prop := s.pc.toNat ≤ 0xFFE ∧ wordNumberAt s = 0x1000 + s.pc.toNat

/-- Calls executed one after another, to the targets listed, without a return between them (R28). -/
def runCalls : List Addr → State → Result
  | [], s      => .next s
  | a :: as, s =>
    match exec (.call a) s with
    | .next t    => runCalls as t
    | .fault f   => .fault f
    | .refused r => .refused r

/-! ## The invariant (U14) -/

/-- What holds of every reachable state: memory in canonical form, I at most 0xFFF (R26), PC at most 0x10FE (R25), and
every stack entry an address after an instruction, at most 0x1000 (R27, R102). SP at most 16 holds by its type. -/
def Inv (s : State) : Prop :=
  Memory.wf s.mem = true ∧ s.i.toNat ≤ 0xFFF ∧ s.pc.toNat ≤ 0x10FE ∧ ∀ k : Fin 16, s.stack[k].toNat ≤ 0x1000

/-- A state that operations of the public surface lead to from reset (R13, R241). -/
inductive Reachable : State → Prop where
  | reset : Reachable State.reset
  | operate (s : State) (op : Operation) : Reachable s → Reachable (operate op s)

end Sys2Proof.Machine
end

