-- ==== Sys2Proof/Certificates/Slice0/Obligations.lean ====
section
/-!
DEFINITION. The statements for the provers, from the numbered rules of spec/. Fields of a word are written as slices:
`w.extractLsb' lo len` is bits `lo + len - 1` to `lo`.
-/

open Sys2Proof Sys2Proof.Machine

/-! ## Encoding -/

/-- Words written out from the patterns of 30_encoding.md, one or more of each of the sixteen families (R73: a family is
bits 15:12 of the word), decode to what they stand for (95_test_vectors.md section 10). -/
def Obligations.ReferenceWordsDecode : Prop :=
  decodeWord 0x00E0 = .ok .cls ∧ decodeWord 0x00EE = .ok .ret ∧ decodeWord 0x1ABC = .ok (.jp 0xABC) ∧
  decodeWord 0x2ABC = .ok (.call 0xABC) ∧ decodeWord 0x3AFE = .ok (.seByte 10 0xFE) ∧
  decodeWord 0x4F00 = .ok (.sneByte 15 0x00) ∧ decodeWord 0x5AB0 = .ok (.seReg 10 11) ∧
  decodeWord 0x6C7D = .ok (.ldByte 12 0x7D) ∧ decodeWord 0x7001 = .ok (.addByte 0 0x01) ∧
  decodeWord 0x8AB7 = .ok (.subnReg 10 11) ∧ decodeWord 0x9AB0 = .ok (.sneReg 10 11) ∧
  decodeWord 0xA000 = .ok (.ldI 0) ∧ decodeWord 0xBFFF = .ok (.jpV0 0xFFF) ∧ decodeWord 0xC3F0 = .ok (.rnd 3 0xF0) ∧
  decodeWord 0xD7A5 = .ok (.drw 7 10 5) ∧ decodeWord 0xE5A1 = .ok (.sknp 5) ∧ decodeWord 0xF533 = .ok (.ldB 5) ∧
  decodeWord 0xF555 = .ok (.ldMemVx 5) ∧ decodeWord 0x0000 = .error (.unsupportedOpcode 0x0000) ∧
  decodeWord 0x01E0 = .error (.unsupportedOpcode 0x01E0) ∧ decode [0x12, 0x34, 0x56] = .ok (.jp 0x234, [0x56])

/-- Decode and encode agree on every well-formed instruction, with every operand at every value, as a word and as the
first two bytes of any list of bytes. -/
def Obligations.DecodeOfEncode : Prop :=
  ∀ i : Instr, i.wellFormed = true →
    decodeWord (encode i) = .ok i ∧ ∀ rest : List Byte, decode (encodeBytes i ++ rest) = .ok (i, rest)

/-- A word that decodes to an instruction is the word the encoder gives it, for every word: so no bit of a word is lost
in the model's syntax. For `8xy6` and `8xyE` that is the model's choice (log entry 17): R75 calls the sixteen words that
differ in the ignored `y` one instruction, and the syntax keeps `y` although no meaning reads it. -/
def Obligations.EncodeOfDecode : Prop :=
  ∀ (w : Word) (i : Instr), decodeWord w = .ok i → encode i = w

/-- The two-level decoder and the match and mask columns of the opcode map say the same (R73, R76): a word decodes
exactly when it matches a row; a word that matches a row decodes to an instruction of that row, and one that decodes to an
instruction matches its row; a word that matches none is `UnsupportedOpcode`; and no word matches two rows. -/
def Obligations.DecoderFollowsTable : Prop :=
  (∀ (w : Word) (i : Instr), decodeWord w = .ok i →
    ∃ r, opcodeRows[i.rowIndex]? = some r ∧ w &&& r.mask = r.pattern) ∧
  (∀ (w : Word) (j : Nat) (r : OpcodeRow), opcodeRows[j]? = some r → w &&& r.mask = r.pattern →
    ∃ i, decodeWord w = .ok i ∧ i.rowIndex = j) ∧
  (∀ w : Word, (∀ r ∈ opcodeRows, w &&& r.mask ≠ r.pattern) → decodeWord w = .error (.unsupportedOpcode w)) ∧
  (∀ (w : Word) (j k : Nat) (r q : OpcodeRow), opcodeRows[j]? = some r → opcodeRows[k]? = some q →
    w &&& r.mask = r.pattern → w &&& q.mask = q.pattern → j = k)

/-- The illegal words are exactly those of R77's table (the counts of R77 left out), and a step that fetches one raises
`UnsupportedOpcode` with the word and PC (R77, R208). -/
def Obligations.IllegalWordsFault : Prop :=
  ∀ w : Word,
    (decodeWord w = .error (.unsupportedOpcode w) ↔
      (w.extractLsb' 12 4 = (0x0 : Nibble) ∧ w ≠ 0x00E0 ∧ w ≠ 0x00EE) ∨
      (w.extractLsb' 12 4 = (0x5 : Nibble) ∧ w.extractLsb' 0 4 ≠ (0 : Nibble)) ∨
      (w.extractLsb' 12 4 = (0x8 : Nibble) ∧
        (w.extractLsb' 0 4).toNat ∈ [0x8, 0x9, 0xA, 0xB, 0xC, 0xD, 0xF]) ∨
      (w.extractLsb' 12 4 = (0x9 : Nibble) ∧ w.extractLsb' 0 4 ≠ (0 : Nibble)) ∨
      (w.extractLsb' 12 4 = (0xE : Nibble) ∧ (w.extractLsb' 0 8).toNat ∉ [0x9E, 0xA1]) ∨
      (w.extractLsb' 12 4 = (0xF : Nibble) ∧
        (w.extractLsb' 0 8).toNat ∉ [0x07, 0x0A, 0x15, 0x18, 0x1E, 0x29, 0x33, 0x55, 0x65])) ∧
    (decodeWord w = .error (.unsupportedOpcode w) → ∀ s : State, s.pc.toNat ≤ 4094 → wordNumberAt s = w.toNat →
      step s = .fault (.unsupportedOpcode w s.pc))

/-! ## Control transfer -/

/-- `00EE` (R100): with entries in use SP goes down by one and PC becomes the entry there, which stays in place; with
none the step raises `StackUnderflow`. -/
def Obligations.ReturnPops : Prop :=
  decodeWord 0x00EE = .ok .ret ∧
  ∀ s : State,
    (s.sp.val = 0 → exec .ret s = .fault (.stackUnderflow s.pc)) ∧
    ∀ k : Fin 16, s.sp.val = k.val + 1 →
      ∃ t, exec .ret s = .next t ∧ t.sp.val = k.val ∧ t.pc = s.stack[k] ∧
        UnchangedBut (fun p => p = .stackPointer ∨ p = .pc) s t

/-- `1addr` (R101): PC becomes `addr`, whatever it is; nothing else changes; after a jump to 0xFFF the next step raises
`OutOfBounds`. -/
def Obligations.JumpSetsPc : Prop :=
  (∀ w : Word, w.extractLsb' 12 4 = (0x1 : Nibble) → decodeWord w = .ok (.jp (w.extractLsb' 0 12))) ∧
  ∀ (addr : Addr) (s : State),
    ∃ t, exec (.jp addr) s = .next t ∧ t.pc.toNat = addr.toNat ∧ UnchangedBut (fun p => p = .pc) s t ∧
      (addr = 0xFFF → step t = .fault (.outOfBounds .code 0xFFF))

/-- `2addr` (R102): with SP below 16 the entry at SP becomes `PC + 2` (no wrap from an address a fetch can have), SP goes
up by one and PC becomes `addr`; with SP at 16 the step raises `StackOverflow`. That `PC + 2` is pushed is the spec's
decision D4. -/
def Obligations.CallPushesReturnAddress : Prop :=
  (∀ w : Word, w.extractLsb' 12 4 = (0x2 : Nibble) → decodeWord w = .ok (.call (w.extractLsb' 0 12))) ∧
  ∀ (addr : Addr) (s : State),
    (s.sp.val = 16 → exec (.call addr) s = .fault (.stackOverflow s.pc)) ∧
    ∀ k : Fin 16, s.sp.val = k.val →
      ∃ t, exec (.call addr) s = .next t ∧ t.stack[k] = s.pc + 2 ∧
        (s.pc.toNat ≤ 4094 → t.stack[k].toNat = s.pc.toNat + 2) ∧ t.sp.val = k.val + 1 ∧
        t.pc.toNat = addr.toNat ∧
        UnchangedBut (fun p => p = .stackEntry k ∨ p = .stackPointer ∨ p = .pc) s t

/-- `Baddr` (R103): PC becomes `addr + V0`, a sum that is not reduced; nothing else changes; a sum above 4094 makes the
next step raise `OutOfBounds`. -/
def Obligations.OffsetJumpAddsV0 : Prop :=
  (∀ w : Word, w.extractLsb' 12 4 = (0xB : Nibble) → decodeWord w = .ok (.jpV0 (w.extractLsb' 0 12))) ∧
  ∀ (addr : Addr) (s : State),
    ∃ t, exec (.jpV0 addr) s = .next t ∧ t.pc.toNat = addr.toNat + (s.reg 0).toNat ∧
      UnchangedBut (fun p => p = .pc) s t ∧
      (addr.toNat + (s.reg 0).toNat > 4094 →
        step t = .fault (.outOfBounds .code (addr.toNat + (s.reg 0).toNat)))

/-- A call that completes, followed at once by a return, leaves PC at the call's address plus 2 and SP as it was; nothing
else has changed but the stack entry used (95_test_vectors.md S5). -/
def Obligations.CallThenReturnResumes : Prop :=
  ∀ (addr : Addr) (s t : State), exec (.call addr) s = .next t →
    ∃ (u : State) (k : Fin 16), exec .ret t = .next u ∧ k.val = s.sp.val ∧ u.pc = s.pc + 2 ∧ u.sp = s.sp ∧
      UnchangedBut (fun p => p = .stackEntry k ∨ p = .pc) s u

/-- From an empty stack sixteen nested calls succeed and one more raises `StackOverflow`; a return from an empty stack
raises `StackUnderflow` (R28). -/
def Obligations.NestedCallsBounded : Prop :=
  ∀ (s : State), s.sp.val = 0 →
    (∀ targets : List Addr, targets.length ≤ 16 →
      ∃ t, runCalls targets s = .next t ∧ t.sp.val = targets.length) ∧
    (∀ targets : List Addr, targets.length > 16 → ∃ pc, runCalls targets s = .fault (.stackOverflow pc)) ∧
    exec .ret s = .fault (.stackUnderflow s.pc)

/-! ## Skips -/

/-- `3xkk` and `4xkk` (R110, R111): PC goes up by 4 when Vx is, or is not, the byte, else by 2; nothing else changes. -/
def Obligations.SkipOnByte : Prop :=
  (∀ w : Word, w.extractLsb' 12 4 = (0x3 : Nibble) →
    decodeWord w = .ok (.seByte (w.extractLsb' 8 4) (w.extractLsb' 0 8))) ∧
  (∀ w : Word, w.extractLsb' 12 4 = (0x4 : Nibble) →
    decodeWord w = .ok (.sneByte (w.extractLsb' 8 4) (w.extractLsb' 0 8))) ∧
  ∀ (x : Reg) (kk : Byte) (s : State),
    (∃ t, exec (.seByte x kk) s = .next t ∧ t.pc = (if s.reg x = kk then s.pc + 4 else s.pc + 2) ∧
      UnchangedBut (fun p => p = .pc) s t) ∧
    (∃ t, exec (.sneByte x kk) s = .next t ∧ t.pc = (if s.reg x ≠ kk then s.pc + 4 else s.pc + 2) ∧
      UnchangedBut (fun p => p = .pc) s t)

/-- `5xy0` and `9xy0` (R112, R113): PC goes up by 4 when Vx and Vy are equal, or differ, else by 2; the low digit is
exact; nothing else changes. -/
def Obligations.SkipOnRegisters : Prop :=
  (∀ w : Word, w.extractLsb' 12 4 = (0x5 : Nibble) →
    (w.extractLsb' 0 4 = (0 : Nibble) → decodeWord w = .ok (.seReg (w.extractLsb' 8 4) (w.extractLsb' 4 4))) ∧
    (w.extractLsb' 0 4 ≠ (0 : Nibble) → decodeWord w = .error (.unsupportedOpcode w))) ∧
  (∀ w : Word, w.extractLsb' 12 4 = (0x9 : Nibble) →
    (w.extractLsb' 0 4 = (0 : Nibble) → decodeWord w = .ok (.sneReg (w.extractLsb' 8 4) (w.extractLsb' 4 4))) ∧
    (w.extractLsb' 0 4 ≠ (0 : Nibble) → decodeWord w = .error (.unsupportedOpcode w))) ∧
  ∀ (x y : Reg) (s : State),
    (∃ t, exec (.seReg x y) s = .next t ∧ t.pc = (if s.reg x = s.reg y then s.pc + 4 else s.pc + 2) ∧
      UnchangedBut (fun p => p = .pc) s t) ∧
    (∃ t, exec (.sneReg x y) s = .next t ∧ t.pc = (if s.reg x ≠ s.reg y then s.pc + 4 else s.pc + 2) ∧
      UnchangedBut (fun p => p = .pc) s t)

/-! ## Arithmetic and logic -/

/-- `6xkk` and `7xkk` (R120, R121): Vx becomes `kk`, or the sum modulo 256; VF is not written unless it is Vx. -/
def Obligations.LoadByteAndAddByte : Prop :=
  (∀ w : Word, w.extractLsb' 12 4 = (0x6 : Nibble) →
    decodeWord w = .ok (.ldByte (w.extractLsb' 8 4) (w.extractLsb' 0 8))) ∧
  (∀ w : Word, w.extractLsb' 12 4 = (0x7 : Nibble) →
    decodeWord w = .ok (.addByte (w.extractLsb' 8 4) (w.extractLsb' 0 8))) ∧
  ∀ (x : Reg) (kk : Byte) (s : State),
    (∃ t, exec (.ldByte x kk) s = .next t ∧ t.reg x = kk ∧ t.pc = s.pc + 2 ∧
      UnchangedBut (fun p => p = .reg x ∨ p = .pc) s t) ∧
    (∃ t, exec (.addByte x kk) s = .next t ∧ (t.reg x).toNat = ((s.reg x).toNat + kk.toNat) % 256 ∧
      t.pc = s.pc + 2 ∧ UnchangedBut (fun p => p = .reg x ∨ p = .pc) s t)

/-- `8xy0` to `8xy3` (R122 to R125): Vx becomes Vy, or the bitwise or, and, exclusive or of the two; VF is not written
unless it is Vx. -/
def Obligations.CopyAndLogic : Prop :=
  (∀ w : Word, w.extractLsb' 12 4 = (0x8 : Nibble) →
    (w.extractLsb' 0 4 = (0 : Nibble) → decodeWord w = .ok (.ldReg (w.extractLsb' 8 4) (w.extractLsb' 4 4))) ∧
    (w.extractLsb' 0 4 = (1 : Nibble) → decodeWord w = .ok (.orReg (w.extractLsb' 8 4) (w.extractLsb' 4 4))) ∧
    (w.extractLsb' 0 4 = (2 : Nibble) → decodeWord w = .ok (.andReg (w.extractLsb' 8 4) (w.extractLsb' 4 4))) ∧
    (w.extractLsb' 0 4 = (3 : Nibble) → decodeWord w = .ok (.xorReg (w.extractLsb' 8 4) (w.extractLsb' 4 4)))) ∧
  ∀ (x y : Reg) (s : State),
    (∃ t, exec (.ldReg x y) s = .next t ∧ t.reg x = s.reg y ∧ t.pc = s.pc + 2 ∧
      UnchangedBut (fun p => p = .reg x ∨ p = .pc) s t) ∧
    (∃ t, exec (.orReg x y) s = .next t ∧
      (∀ k, (t.reg x).getLsbD k = ((s.reg x).getLsbD k || (s.reg y).getLsbD k)) ∧ t.pc = s.pc + 2 ∧
      UnchangedBut (fun p => p = .reg x ∨ p = .pc) s t) ∧
    (∃ t, exec (.andReg x y) s = .next t ∧
      (∀ k, (t.reg x).getLsbD k = ((s.reg x).getLsbD k && (s.reg y).getLsbD k)) ∧ t.pc = s.pc + 2 ∧
      UnchangedBut (fun p => p = .reg x ∨ p = .pc) s t) ∧
    (∃ t, exec (.xorReg x y) s = .next t ∧
      (∀ k, (t.reg x).getLsbD k = ((s.reg x).getLsbD k ^^ (s.reg y).getLsbD k)) ∧ t.pc = s.pc + 2 ∧
      UnchangedBut (fun p => p = .reg x ∨ p = .pc) s t)

/-- `8xy4` (R128), in all four cases of `x` and `y` being 15 or not: VF becomes the carry of the old operands, and then
Vx the sum, modulo 256, of the operands as that write left them (R127, the spec's decision D3). -/
def Obligations.AddSetsCarry : Prop :=
  (∀ w : Word, w.extractLsb' 12 4 = (0x8 : Nibble) → w.extractLsb' 0 4 = (4 : Nibble) →
    decodeWord w = .ok (.addReg (w.extractLsb' 8 4) (w.extractLsb' 4 4))) ∧
  ∀ (x y : Reg) (s : State) (a b c : Nat), a = (s.reg x).toNat → b = (s.reg y).toNat →
    c = (if a + b > 255 then 1 else 0) →
    ∃ t, exec (.addReg x y) s = .next t ∧ t.pc = s.pc + 2 ∧
      UnchangedBut (fun p => p = .reg x ∨ p = .reg 15 ∨ p = .pc) s t ∧
      (x ≠ 15 → y ≠ 15 → (t.reg x).toNat = (a + b) % 256 ∧ (t.reg 15).toNat = c) ∧
      (x ≠ 15 → y = 15 → (t.reg x).toNat = (a + c) % 256 ∧ (t.reg 15).toNat = c) ∧
      (x = 15 → y ≠ 15 → (t.reg 15).toNat = (c + b) % 256) ∧
      (x = 15 → y = 15 → (t.reg 15).toNat = 2 * c)

/-- `8xy5` (R129), in all four cases: VF becomes 1 when Vx is strictly greater than Vy, and then Vx the difference,
modulo 256, of the operands as that write left them (R127, the spec's decision D3). -/
def Obligations.SubtractSetsStrictFlag : Prop :=
  (∀ w : Word, w.extractLsb' 12 4 = (0x8 : Nibble) → w.extractLsb' 0 4 = (5 : Nibble) →
    decodeWord w = .ok (.subReg (w.extractLsb' 8 4) (w.extractLsb' 4 4))) ∧
  ∀ (x y : Reg) (s : State) (a b g : Nat), a = (s.reg x).toNat → b = (s.reg y).toNat →
    g = (if a > b then 1 else 0) →
    ∃ t, exec (.subReg x y) s = .next t ∧ t.pc = s.pc + 2 ∧
      UnchangedBut (fun p => p = .reg x ∨ p = .reg 15 ∨ p = .pc) s t ∧
      (x ≠ 15 → y ≠ 15 → (t.reg x).toNat = (a + 256 - b) % 256 ∧ (t.reg 15).toNat = g) ∧
      (x ≠ 15 → y = 15 → (t.reg x).toNat = (a + 256 - g) % 256 ∧ (t.reg 15).toNat = g) ∧
      (x = 15 → y ≠ 15 → (t.reg 15).toNat = (g + 256 - b) % 256) ∧
      (x = 15 → y = 15 → (t.reg 15).toNat = 0)

/-- `8xy6` (R130): for every `y`, VF becomes bit 0 of Vx and then Vx its half; with `x = 15` the
result is always 0 (the spec's decision D3). -/
def Obligations.ShiftRightByOne : Prop :=
  (∀ w : Word, w.extractLsb' 12 4 = (0x8 : Nibble) → w.extractLsb' 0 4 = (6 : Nibble) →
    decodeWord w = .ok (.shr (w.extractLsb' 8 4) (w.extractLsb' 4 4))) ∧
  ∀ (x y : Reg) (s : State),
    ∃ t, exec (.shr x y) s = .next t ∧ t.pc = s.pc + 2 ∧
      UnchangedBut (fun p => p = .reg x ∨ p = .reg 15 ∨ p = .pc) s t ∧
      (x ≠ 15 → (t.reg x).toNat = (s.reg x).toNat / 2 ∧ (t.reg 15).toNat = (s.reg x).toNat % 2) ∧
      (x = 15 → (t.reg 15).toNat = 0)

/-- `8xy7` (R131), in all four cases: VF becomes 1 when Vy is strictly greater than Vx, and then Vx the reversed
difference, modulo 256, of the operands as that write left them (R127, the spec's decision D3). -/
def Obligations.SubtractReversed : Prop :=
  (∀ w : Word, w.extractLsb' 12 4 = (0x8 : Nibble) → w.extractLsb' 0 4 = (7 : Nibble) →
    decodeWord w = .ok (.subnReg (w.extractLsb' 8 4) (w.extractLsb' 4 4))) ∧
  ∀ (x y : Reg) (s : State) (a b g : Nat), a = (s.reg x).toNat → b = (s.reg y).toNat →
    g = (if b > a then 1 else 0) →
    ∃ t, exec (.subnReg x y) s = .next t ∧ t.pc = s.pc + 2 ∧
      UnchangedBut (fun p => p = .reg x ∨ p = .reg 15 ∨ p = .pc) s t ∧
      (x ≠ 15 → y ≠ 15 → (t.reg x).toNat = (b + 256 - a) % 256 ∧ (t.reg 15).toNat = g) ∧
      (x ≠ 15 → y = 15 → (t.reg x).toNat = (g + 256 - a) % 256 ∧ (t.reg 15).toNat = g) ∧
      (x = 15 → y ≠ 15 → (t.reg 15).toNat = (b + 256 - g) % 256) ∧
      (x = 15 → y = 15 → (t.reg 15).toNat = 0)

/-- `8xyE` (R132): for every `y`, VF becomes bit 7 of Vx and then Vx its double modulo 256; with `x = 15` the result is
2 or 0 (the spec's decision D3). -/
def Obligations.ShiftLeftByOne : Prop :=
  (∀ w : Word, w.extractLsb' 12 4 = (0x8 : Nibble) → w.extractLsb' 0 4 = (0xE : Nibble) →
    decodeWord w = .ok (.shl (w.extractLsb' 8 4) (w.extractLsb' 4 4))) ∧
  ∀ (x y : Reg) (s : State),
    ∃ t, exec (.shl x y) s = .next t ∧ t.pc = s.pc + 2 ∧
      UnchangedBut (fun p => p = .reg x ∨ p = .reg 15 ∨ p = .pc) s t ∧
      (x ≠ 15 → (t.reg x).toNat = 2 * (s.reg x).toNat % 256 ∧
        (t.reg 15).toNat = (if (s.reg x).toNat ≥ 128 then 1 else 0)) ∧
      (x = 15 → (t.reg 15).toNat = (if (s.reg x).toNat ≥ 128 then 2 else 0))

/-- `Cxkk` (R133): Vx becomes some byte under the mask `kk`, so it has no bit `kk` lacks, is at most `kk`, and is 0 for
`kk = 0`. The byte is the free one of the current draw and the next draw is another, which is the model's way of saying
that it is any value (log entries 3 and 5). -/
def Obligations.RandomUnderMask : Prop :=
  (∀ w : Word, w.extractLsb' 12 4 = (0xC : Nibble) →
    decodeWord w = .ok (.rnd (w.extractLsb' 8 4) (w.extractLsb' 0 8))) ∧
  ∀ (x : Reg) (kk : Byte) (s : State),
    ∃ t, exec (.rnd x kk) s = .next t ∧ t.reg x = Config.rnd s.draws &&& kk ∧ t.draws = s.draws + 1 ∧
      t.reg x &&& ~~~kk = 0 ∧ (t.reg x).toNat ≤ kk.toNat ∧ (kk = 0 → t.reg x = 0) ∧ t.pc = s.pc + 2 ∧
      UnchangedBut (fun p => p = .reg x ∨ p = .pc ∨ p = .draws) s t

/-! ## The index register and memory -/

/-- `Aaddr` and `Fx1E` (R150, R151): I becomes `addr`, or the sum of I and Vx modulo 4096; VF is not written. -/
def Obligations.LoadAndAddIndex : Prop :=
  (∀ w : Word, w.extractLsb' 12 4 = (0xA : Nibble) → decodeWord w = .ok (.ldI (w.extractLsb' 0 12))) ∧
  (∀ w : Word, w.extractLsb' 12 4 = (0xF : Nibble) → w.extractLsb' 0 8 = (0x1E : Byte) →
    decodeWord w = .ok (.addI (w.extractLsb' 8 4))) ∧
  (∀ (addr : Addr) (s : State),
    ∃ t, exec (.ldI addr) s = .next t ∧ t.i.toNat = addr.toNat ∧ t.pc = s.pc + 2 ∧
      UnchangedBut (fun p => p = .index ∨ p = .pc) s t) ∧
  ∀ (x : Reg) (s : State),
    ∃ t, exec (.addI x) s = .next t ∧ t.i.toNat = (s.i.toNat + (s.reg x).toNat) % 4096 ∧ t.pc = s.pc + 2 ∧
      UnchangedBut (fun p => p = .index ∨ p = .pc) s t

/-- `Fx29` (R152): I becomes the font origin plus five times all eight bits of Vx (the spec's decision D22), at most 0x6AB,
whatever the origin is. -/
def Obligations.FontCharacterAddress : Prop :=
  (∀ w : Word, w.extractLsb' 12 4 = (0xF : Nibble) → w.extractLsb' 0 8 = (0x29 : Byte) →
    decodeWord w = .ok (.ldF (w.extractLsb' 8 4))) ∧
  ∀ (x : Reg) (s : State),
    ∃ t, exec (.ldF x) s = .next t ∧ t.i.toNat = Config.fontOrigin.val + 5 * (s.reg x).toNat ∧
      t.i.toNat ≤ 0x6AB ∧ t.pc = s.pc + 2 ∧ UnchangedBut (fun p => p = .index ∨ p = .pc) s t

/-- `Fx33` (R153): the hundreds, tens and ones of Vx are stored at I, I + 1 and I + 2; I, Vx and every other byte are
unchanged; with I + 2 past 4095 the step raises `OutOfBounds` (the spec's decision D7). -/
def Obligations.StoreDecimalDigits : Prop :=
  (∀ w : Word, w.extractLsb' 12 4 = (0xF : Nibble) → w.extractLsb' 0 8 = (0x33 : Byte) →
    decodeWord w = .ok (.ldB (w.extractLsb' 8 4))) ∧
  ∀ (x : Reg) (s : State),
    (s.i.toNat + 2 > 4095 → exec (.ldB x) s = .fault (.outOfBounds .data (s.i.toNat + 2))) ∧
    (s.i.toNat + 2 ≤ 4095 →
      ∃ t, exec (.ldB x) s = .next t ∧ (t.byteAt s.i.toNat).toNat = (s.reg x).toNat / 100 ∧
        (t.byteAt (s.i.toNat + 1)).toNat = (s.reg x).toNat / 10 % 10 ∧
        (t.byteAt (s.i.toNat + 2)).toNat = (s.reg x).toNat % 10 ∧ t.pc = s.pc + 2 ∧
        UnchangedBut (fun p => p = .memory s.i.toNat ∨ p = .memory (s.i.toNat + 1) ∨
          p = .memory (s.i.toNat + 2) ∨ p = .pc) s t)

/-- `Fx55` (R155): recognised, and always `UnsupportedOpcode` with the word and PC, for every `x` in every state, as an
instruction and as a step that fetches it (the spec's decision D25). -/
def Obligations.StoreRegistersFaults : Prop :=
  ∀ w : Word, w.extractLsb' 12 4 = (0xF : Nibble) → w.extractLsb' 0 8 = (0x55 : Byte) →
    decodeWord w = .ok (.ldMemVx (w.extractLsb' 8 4)) ∧
    (∀ s : State, exec (.ldMemVx (w.extractLsb' 8 4)) s = .fault (.unsupportedOpcode w s.pc)) ∧
    (∀ s : State, s.pc.toNat ≤ 4094 → wordNumberAt s = w.toNat → step s = .fault (.unsupportedOpcode w s.pc))

/-- `Fx65` (R156): V0 to Vx become the bytes at I to I + x; I and the registers above Vx are unchanged; with I + x past
4095 the step raises `OutOfBounds` (the spec's decision D7). -/
def Obligations.LoadRegistersFromMemory : Prop :=
  (∀ w : Word, w.extractLsb' 12 4 = (0xF : Nibble) → w.extractLsb' 0 8 = (0x65 : Byte) →
    decodeWord w = .ok (.ldVxMem (w.extractLsb' 8 4))) ∧
  ∀ (x : Reg) (s : State),
    (s.i.toNat + x.toNat > 4095 → exec (.ldVxMem x) s = .fault (.outOfBounds .data (s.i.toNat + x.toNat))) ∧
    (s.i.toNat + x.toNat ≤ 4095 →
      ∃ t, exec (.ldVxMem x) s = .next t ∧
        (∀ r : Reg, r.toNat ≤ x.toNat → t.reg r = s.byteAt (s.i.toNat + r.toNat)) ∧ t.pc = s.pc + 2 ∧
        UnchangedBut (fun p => (∃ r : Reg, r.toNat ≤ x.toNat ∧ p = .reg r) ∨ p = .pc) s t)

/-- A byte stored by `Fx33` is what the next fetch reads, as the high byte of the word if it stands at PC and as the low
byte if it stands at PC + 1 (R53, R64). -/
def Obligations.StoreSeenByNextFetch : Prop :=
  ∀ (s t : State) (x : Reg) (w : Word), fetchInstr s = .ok (.ldB x) → step s = .next t → fetch t = .ok w →
    (t.pc.toNat = s.i.toNat → w.toNat / 256 = (s.reg x).toNat / 100) ∧
    (t.pc.toNat = s.i.toNat + 1 → w.toNat / 256 = (s.reg x).toNat / 10 % 10) ∧
    (t.pc.toNat = s.i.toNat + 2 → w.toNat / 256 = (s.reg x).toNat % 10) ∧
    (t.pc.toNat + 1 = s.i.toNat → w.toNat % 256 = (s.reg x).toNat / 100) ∧
    (t.pc.toNat + 1 = s.i.toNat + 1 → w.toNat % 256 = (s.reg x).toNat / 10 % 10) ∧
    (t.pc.toNat + 1 = s.i.toNat + 2 → w.toNat % 256 = (s.reg x).toNat % 10)

/-! ## The display -/

/-- `00E0` (R170): every cell becomes 0 and REDRAW true, even on a clear screen; VF is not written. -/
def Obligations.ClearScreen : Prop :=
  decodeWord 0x00E0 = .ok .cls ∧
  ∀ s : State,
    ∃ t, exec .cls s = .next t ∧ (∀ c : Fin 2048, (readFramebuffer t).getLsbD c.val = false) ∧ t.redraw = true ∧
      t.pc = s.pc + 2 ∧ UnchangedBut (fun p => (∃ c, p = .cell c) ∨ p = .redraw ∨ p = .pc) s t

/-- `Dxyn` (R171, R172, R174): every cell a sprite bit that is 1 falls on is toggled and no other, at coordinates read
before VF is written; VF becomes 1 when one of those cells was 1 before and 0 otherwise; REDRAW becomes true; a sprite
past 4095 raises `OutOfBounds`, and with `n = 0` nothing can. That bit 7 of a byte is column 0 is the spec's decision D13
from general knowledge (log entry 12), the order of the reads its decision D14, the bound its decision D7. -/
def Obligations.DrawSprite : Prop :=
  (∀ w : Word, w.extractLsb' 12 4 = (0xD : Nibble) →
    decodeWord w = .ok (.drw (w.extractLsb' 8 4) (w.extractLsb' 4 4) (w.extractLsb' 0 4))) ∧
  ∀ (x y : Reg) (n : Nibble) (s : State),
    (n ≠ 0 → s.i.toNat + n.toNat - 1 > 4095 →
      exec (.drw x y n) s = .fault (.outOfBounds .data (s.i.toNat + n.toNat - 1))) ∧
    ((n = 0 ∨ s.i.toNat + n.toNat - 1 ≤ 4095) →
      ∃ t, exec (.drw x y n) s = .next t ∧
        (∀ c : Fin 2048, SpriteCell s x y n c.val → t.fb.getLsbD c.val = !s.fb.getLsbD c.val) ∧
        ((∃ c, SpriteCell s x y n c ∧ s.fb.getLsbD c = true) → t.reg 15 = 1) ∧
        ((¬ ∃ c, SpriteCell s x y n c ∧ s.fb.getLsbD c = true) → t.reg 15 = 0) ∧
        t.redraw = true ∧ t.pc = s.pc + 2 ∧
        UnchangedBut (fun p => (∃ c : Fin 2048, SpriteCell s x y n c.val ∧ p = .cell c) ∨ p = .reg 15 ∨
          p = .redraw ∨ p = .pc) s t)

/-- The same sprite drawn twice at the same place restores every cell, and the second draw leaves VF at 1 exactly when
the first left one of the sprite's cells at 1 (R174). -/
def Obligations.DrawTwiceRestores : Prop :=
  ∀ (x y : Reg) (n : Nibble) (s t u : State), exec (.drw x y n) s = .next t → exec (.drw x y n) t = .next u →
    t.reg x = s.reg x → t.reg y = s.reg y →
    (∀ c : Fin 2048, u.fb.getLsbD c.val = s.fb.getLsbD c.val) ∧
    (u.reg 15 = 1 ↔ ∃ c, SpriteCell s x y n c ∧ t.fb.getLsbD c = true) ∧ (u.reg 15 = 1 ∨ u.reg 15 = 0)

/-! ## Keypad and timers -/

/-- `Ex9E` and `ExA1` (R180, R181, R186): PC goes up by 4 when the key numbered by the VALUE of Vx is down, or is not,
else by 2; nothing else changes; with Vx above 15 the step raises `OutOfBounds` (the spec's decision D8). -/
def Obligations.SkipOnKey : Prop :=
  (∀ w : Word, w.extractLsb' 12 4 = (0xE : Nibble) →
    (w.extractLsb' 0 8 = (0x9E : Byte) → decodeWord w = .ok (.skp (w.extractLsb' 8 4))) ∧
    (w.extractLsb' 0 8 = (0xA1 : Byte) → decodeWord w = .ok (.sknp (w.extractLsb' 8 4)))) ∧
  ∀ (x : Reg) (s : State),
    ((s.reg x).toNat > 15 →
      exec (.skp x) s = .fault (.outOfBounds .keypad (s.reg x).toNat) ∧
      exec (.sknp x) s = .fault (.outOfBounds .keypad (s.reg x).toNat)) ∧
    (∀ k : Fin 16, (s.reg x).toNat = k.val →
      (∃ t, exec (.skp x) s = .next t ∧
        t.pc = (if s.key.getLsbD k.val = true then s.pc + 4 else s.pc + 2) ∧
        UnchangedBut (fun p => p = .pc) s t) ∧
      (∃ t, exec (.sknp x) s = .next t ∧
        t.pc = (if s.key.getLsbD k.val = true then s.pc + 2 else s.pc + 4) ∧
        UnchangedBut (fun p => p = .pc) s t))

/-- `Fx0A` (R182): with no key down nothing changes; otherwise Vx becomes the index of a key that is down, any one of
them (the model's counter of draws moves on, log entry 5), and PC goes up by 2. -/
def Obligations.WaitForKey : Prop :=
  (∀ w : Word, w.extractLsb' 12 4 = (0xF : Nibble) → w.extractLsb' 0 8 = (0x0A : Byte) →
    decodeWord w = .ok (.ldVxK (w.extractLsb' 8 4))) ∧
  ∀ (x : Reg) (s : State),
    ((∀ k : Fin 16, s.key.getLsbD k.val = false) → exec (.ldVxK x) s = .next s) ∧
    ((∃ k : Fin 16, s.key.getLsbD k.val = true) →
      ∃ (t : State) (k : Fin 16), exec (.ldVxK x) s = .next t ∧ s.key.getLsbD k.val = true ∧
        (t.reg x).toNat = k.val ∧ t.pc = s.pc + 2 ∧
        UnchangedBut (fun p => p = .reg x ∨ p = .pc ∨ p = .draws) s t)

/-- The waiting step (R187): a step that fetches `Fx0A` with no key down succeeds, leaves PC and everything else but the
timers, ticks the timers, and reports Waiting; the same instruction is decoded afresh by the next step. -/
def Obligations.WaitingStep : Prop :=
  ∀ (s : State) (x : Reg), fetchInstr s = .ok (.ldVxK x) → s.key = 0 →
    ∃ t, step s = .next t ∧ t.dt.toNat = s.dt.toNat - 1 ∧ t.st.toNat = s.st.toNat - 1 ∧
      UnchangedBut (fun p => p = .delayTimer ∨ p = .soundTimer) s t ∧ stepOutcome s = .waiting s.redraw ∧
      fetchInstr t = .ok (.ldVxK x)

/-- `Fx07`, `Fx15` and `Fx18` (R183 to R185): Vx becomes DT, or DT or ST becomes Vx; and the tick of the same step then
counts the timers down, so that Vx holds DT as the previous step left it, and a timer loaded with Vx ends one lower,
or at 0. -/
def Obligations.TimerMoves : Prop :=
  (∀ w : Word, w.extractLsb' 12 4 = (0xF : Nibble) →
    (w.extractLsb' 0 8 = (0x07 : Byte) → decodeWord w = .ok (.ldVxDt (w.extractLsb' 8 4))) ∧
    (w.extractLsb' 0 8 = (0x15 : Byte) → decodeWord w = .ok (.ldDtVx (w.extractLsb' 8 4))) ∧
    (w.extractLsb' 0 8 = (0x18 : Byte) → decodeWord w = .ok (.ldStVx (w.extractLsb' 8 4)))) ∧
  ∀ (x : Reg) (s : State),
    (∃ t, exec (.ldVxDt x) s = .next t ∧ t.reg x = s.dt ∧ t.pc = s.pc + 2 ∧
      UnchangedBut (fun p => p = .reg x ∨ p = .pc) s t ∧
      (fetchInstr s = .ok (.ldVxDt x) →
        ∃ u, step s = .next u ∧ u.reg x = s.dt ∧ u.dt.toNat = s.dt.toNat - 1)) ∧
    (∃ t, exec (.ldDtVx x) s = .next t ∧ t.dt = s.reg x ∧ t.pc = s.pc + 2 ∧
      UnchangedBut (fun p => p = .delayTimer ∨ p = .pc) s t ∧
      (fetchInstr s = .ok (.ldDtVx x) → ∃ u, step s = .next u ∧ u.dt.toNat = (s.reg x).toNat - 1)) ∧
    (∃ t, exec (.ldStVx x) s = .next t ∧ t.st = s.reg x ∧ t.pc = s.pc + 2 ∧
      UnchangedBut (fun p => p = .soundTimer ∨ p = .pc) s t ∧
      (fetchInstr s = .ok (.ldStVx x) → ∃ u, step s = .next u ∧ u.st.toNat = (s.reg x).toNat - 1))

/-- In every step that does not fault each timer above 0 counts down by one after Execute, whichever instruction
executed; `Fx15` and `Fx18` set a timer first; and a step that faults leaves the timers (R33, the spec's decision D11). -/
def Obligations.TimersTickEachStep : Prop :=
  (∀ (s t : State) (i : Instr), fetchInstr s = .ok i → step s = .next t →
    ((∀ x, i ≠ .ldDtVx x) → t.dt.toNat = s.dt.toNat - 1) ∧
    (∀ x, i = .ldDtVx x → t.dt.toNat = (s.reg x).toNat - 1) ∧
    ((∀ x, i ≠ .ldStVx x) → t.st.toNat = s.st.toNat - 1) ∧
    (∀ x, i = .ldStVx x → t.st.toNat = (s.reg x).toNat - 1)) ∧
  (∀ (s : State) (f : Fault), step s = .fault f →
    (operate .step s).dt = s.dt ∧ (operate .step s).st = s.st)

/-! ## The step -/

/-- A step runs the decoded instruction (R250): with PC above 4094 it raises `OutOfBounds`; when the two bytes at PC are no
instruction it raises `UnsupportedOpcode`; when they decode to `i`, the step is `exec i` and then, if that answers a
next state, each timer above 0 one lower, and otherwise the fault itself. -/
def Obligations.StepRunsDecodedInstruction : Prop :=
  ∀ s : State,
    (s.pc.toNat > 4094 → step s = .fault (.outOfBounds .code s.pc.toNat)) ∧
    (s.pc.toNat ≤ 4094 →
      (∀ w : Word, w.toNat = wordNumberAt s → decodeWord w = .error (.unsupportedOpcode w) →
        step s = .fault (.unsupportedOpcode w s.pc)) ∧
      (∀ i : Instr, decode [s.byteAt s.pc.toNat, s.byteAt (s.pc.toNat + 1)] = .ok (i, []) → i.wellFormed = true →
        (∀ u, exec i s = .next u →
          step s = .next { u with dt := if u.dt.toNat > 0 then u.dt - 1 else u.dt,
                                  st := if u.st.toNat > 0 then u.st - 1 else u.st }) ∧
        (∀ f, exec i s = .fault f → step s = .fault f)))

/-- The fetch (R52): with PC at most 4094 the word of the bytes at PC and PC + 1, first byte high, odd or even PC alike;
with PC above, `OutOfBounds` (the spec's decision D6). -/
def Obligations.FetchReadsTwoBytes : Prop :=
  ∀ s : State,
    (s.pc.toNat > 4094 → fetch s = .error (.outOfBounds .code s.pc.toNat)) ∧
    (s.pc.toNat ≤ 4094 → ∃ w, fetch s = .ok w ∧
      w.toNat = (s.byteAt s.pc.toNat).toNat * 256 + (s.byteAt (s.pc.toNat + 1)).toNat)

/-- An instruction faults exactly as R202 tabulates and completes in every other case, and a step reports the first fault
its phases meet in the order Fetch, Decode, Execute (R202, R213). -/
def Obligations.FaultsExactlyAsTabulated : Prop :=
  (∀ (i : Instr) (s : State),
    (∀ f, exec i s = .fault f ↔ executeFault i s = some f) ∧
    ((∃ t, exec i s = .next t) ↔ executeFault i s = none)) ∧
  (∀ s : State,
    (∀ f, step s = .fault f ↔ stepFault s = some f) ∧ (SafeStep s ↔ stepFault s = none))

/-- No instruction and no step is ever refused: each completes or raises one of the machine's own faults (R80, R201). -/
def Obligations.NothingIsRefused : Prop :=
  (∀ (i : Instr) (s : State) (r : Refusal), exec i s ≠ .refused r) ∧
  (∀ (s : State) (r : Refusal), step s ≠ .refused r)

/-- After a fault (R203, R204): the state is unchanged, so the step raises the same fault again; and the fault depends
only on memory, PC, SP, I and V, so it is the same whatever the keys, the timers, the screen, the stack entries and the
draws are. -/
def Obligations.FaultsRepeat : Prop :=
  (∀ (s : State) (f : Fault), step s = .fault f →
    operate .step s = s ∧ step (operate .step s) = .fault f) ∧
  (∀ (s t : State) (f : Fault), (∀ a, t.byteAt a = s.byteAt a) → t.pc = s.pc → t.sp = s.sp → t.i = s.i →
    (∀ r, t.reg r = s.reg r) → step s = .fault f → step t = .fault f)

/-- How each instruction leaves PC, by the classes of R24, and a step that faults leaves it. -/
def Obligations.PcByClass : Prop :=
  (∀ (i : Instr) (s t : State), exec i s = .next t → t.pc = pcAfter i s) ∧
  (∀ (s t : State) (i : Instr), fetchInstr s = .ok i → step s = .next t → t.pc = pcAfter i s) ∧
  (∀ (s : State) (f : Fault), step s = .fault f → (operate .step s).pc = s.pc)

/-- What a step reports (R251): Waiting exactly when the instruction was `Fx0A` with no key down, Retired for every other
step that completes, each with REDRAW as it stands after the step, and the fault otherwise (the spec's decisions D12,
D26). REDRAW is true after a step exactly when the step drew (`00E0`, `Dxyn`) or it was true before, so it stays true
until `clearRedrawFlag()`, which clears it. -/
def Obligations.StepReport : Prop :=
  ∀ s : State,
    (∀ f, step s = .fault f → stepOutcome s = .fault f) ∧
    (∀ t, step s = .next t → (∃ x, fetchInstr s = .ok (.ldVxK x)) → s.key = 0 →
      stepOutcome s = .waiting t.redraw) ∧
    (∀ t, step s = .next t → ((∀ x, fetchInstr s ≠ .ok (.ldVxK x)) ∨ s.key ≠ 0) →
      stepOutcome s = .retired t.redraw) ∧
    (∀ t, step s = .next t → (t.redraw = true ↔
      s.redraw = true ∨ fetchInstr s = .ok .cls ∨ ∃ x y n, fetchInstr s = .ok (.drw x y n))) ∧
    (clearRedrawFlag s).redraw = false

/-- The end of a run (R252, the spec's decision D29): at a jump to itself a step changes nothing but the timers, and stays there. -/
def Obligations.SelfJumpChangesOnlyTimers : Prop :=
  ∀ s : State, AtSelfJump s →
    ∃ t, step s = .next t ∧ UnchangedBut (fun p => p = .delayTimer ∨ p = .soundTimer) s t ∧ AtSelfJump t

/-! ## Frames over all instructions -/

/-- Only its destination by the field `x`, and for the six instructions of R22 VF as well, is written among the
registers; every other instruction leaves VF alone unless its destination reaches it. -/
def Obligations.RegistersWritten : Prop :=
  ∀ (i : Instr) (s t : State) (r : Reg), exec i s = .next t → isDestination i r = false →
    (writesFlag i = true → r ≠ 15) → t.reg r = s.reg r

/-- Only `Fx33` stores to memory, only `00E0` and `Dxyn` write the framebuffer and REDRAW, and those two always set it
(R35, R36, R54). -/
def Obligations.MemoryAndScreenWriters : Prop :=
  ∀ (i : Instr) (s t : State), exec i s = .next t →
    ((∀ x, i ≠ .ldB x) → ∀ a, t.byteAt a = s.byteAt a) ∧
    (i ≠ .cls → (∀ x y n, i ≠ .drw x y n) → t.fb = s.fb ∧ t.redraw = s.redraw) ∧
    ((i = .cls ∨ ∃ x y n, i = .drw x y n) → t.redraw = true)

/-- Only `2addr` and `00EE` touch the stack pointer, only `2addr` an entry, and only `Aaddr`, `Fx1E` and `Fx29` write I
(R26, R27). -/
def Obligations.StackAndIndexWriters : Prop :=
  ∀ (i : Instr) (s t : State), exec i s = .next t →
    ((∀ a, i ≠ .call a) → i ≠ .ret → t.sp = s.sp) ∧ ((∀ a, i ≠ .call a) → t.stack = s.stack) ∧
    ((∀ a, i ≠ .ldI a) → (∀ x, i ≠ .addI x) → (∀ x, i ≠ .ldF x) → t.i = s.i)

/-- No step writes the keypad latch (R34), and of the instructions only `Fx15` writes DT and only `Fx18` writes ST
(R29). -/
def Obligations.KeypadAndTimerWriters : Prop :=
  (∀ s t : State, step s = .next t → t.key = s.key) ∧
  (∀ (i : Instr) (s t : State), exec i s = .next t →
    ((∀ x, i ≠ .ldDtVx x) → t.dt = s.dt) ∧ ((∀ x, i ≠ .ldStVx x) → t.st = s.st))

/-! ## Reset, the invariant, the host operations -/

/-- What reset leaves (R240): every register, the stack, the timers, the latch and the screen 0, PC 0x200, REDRAW false,
and memory 0 but for the 80 font bytes at the font origin, which lie below 0x200; whatever the two font parameters
are. -/
def Obligations.ResetState : Prop :=
  (∀ r, State.reset.reg r = 0) ∧ State.reset.i = 0 ∧ State.reset.pc = 0x200 ∧
  (∀ k : Fin 16, State.reset.stack[k] = 0) ∧ State.reset.sp = 0 ∧ State.reset.dt = 0 ∧ State.reset.st = 0 ∧
  (∀ k : Fin 16, State.reset.key.getLsbD k.val = false) ∧
  (∀ c : Fin 2048, State.reset.fb.getLsbD c.val = false) ∧ State.reset.redraw = false ∧
  Config.fontOrigin.val + 80 ≤ 0x200 ∧
  (∀ k : Fin 80, State.reset.byteAt (Config.fontOrigin.val + k.val) = Config.fontTable k) ∧
  (∀ a : Nat, a < 4096 → (a < Config.fontOrigin.val ∨ Config.fontOrigin.val + 80 ≤ a) → State.reset.byteAt a = 0)

/-- The invariant holds at reset. -/
def Obligations.ResetMeetsInvariant : Prop := Inv State.reset

/-- Every step keeps the invariant, from every state that meets it: memory stays in canonical form, I stays at most 0xFFF
(R26), PC at most 0x10FE (R25), and every stack entry at most 0x1000. -/
def Obligations.StepKeepsInvariant : Prop :=
  ∀ s t : State, Inv s → step s = .next t → Inv t

/-- Every operation of the public surface keeps the invariant, and so every reachable state meets it. -/
def Obligations.ReachableStatesMeetInvariant : Prop :=
  (∀ (s : State) (op : Operation), Inv s → Inv (operate op s)) ∧ ∀ s : State, Reachable s → Inv s

/-- `initialize()` from any state at all gives the state after reset, in every part of R20 (R241; the model's counter of
draws runs on, log entry 5), whose first step without a program raises `UnsupportedOpcode` (R243). -/
def Obligations.InitializeFromAnyState : Prop :=
  ∀ s : State, UnchangedBut (fun p => p = .draws) State.reset (initializeOp s) ∧
    step (initializeOp s) = .fault (.unsupportedOpcode 0x0000 0x200)

/-- `loadProgram(bytes)` (R244): at most 3584 bytes are copied to 0x200 on and nothing else changes; more bytes give
`ProgramTooLarge` and change nothing. -/
def Obligations.LoadProgramCopies : Prop :=
  ∀ (bytes : List Byte) (s : State),
    (bytes.length > 3584 →
      loadProgram bytes s = .error .programTooLarge ∧ operate (.loadProgram bytes) s = s) ∧
    (bytes.length ≤ 3584 →
      ∃ t, loadProgram bytes s = .ok t ∧ operate (.loadProgram bytes) s = t ∧
        (∀ k, k < bytes.length → t.byteAt (0x200 + k) = bytes.getD k 0) ∧
        UnchangedBut (fun p => ∃ k, k < bytes.length ∧ p = .memory (0x200 + k)) s t)

/-- `setKeys(snapshot)` (R245): the latch is replaced wholesale and nothing else changes; in the software form a list of
16 gives key `k` its element `k`, and another length gives `InvalidInput`. -/
def Obligations.SetKeysReplaces : Prop :=
  (∀ (snapshot : BitVec 16) (s : State),
    (∀ k : Fin 16, (setKeys snapshot s).key.getLsbD k.val = snapshot.getLsbD k.val) ∧
    UnchangedBut (fun p => ∃ k, p = .key k) s (setKeys snapshot s)) ∧
  (∀ (snapshot : List Bool) (s : State),
    (snapshot.length ≠ 16 → setKeysList snapshot s = .error .invalidInput) ∧
    (snapshot.length = 16 → ∃ t, setKeysList snapshot s = .ok t ∧
      (∀ k : Fin 16, t.key.getLsbD k.val = snapshot.getD k.val false) ∧
      UnchangedBut (fun p => ∃ k, p = .key k) s t))

/-- `readFramebuffer()` returns the 2048 cells by linear index and changes nothing, not even REDRAW; `clearRedrawFlag()`
sets REDRAW false and changes nothing else (R246, R247), and no step does: a step never clears the flag. -/
def Obligations.HostReadsAndClears : Prop :=
  ∀ s : State,
    (∀ c : Fin 2048, (readFramebuffer s).getLsbD c.val = s.fb.getLsbD c.val) ∧
    operate .readFramebuffer s = s ∧ (clearRedrawFlag s).redraw = false ∧
    UnchangedBut (fun p => p = .redraw) s (clearRedrawFlag s) ∧
    ∀ t, step s = .next t → s.redraw = true → t.redraw = true

/-! ## The free inputs -/

/-- Nothing but R20's record and the free inputs decides what the machine does (R14, R20; the spec's decisions D9, D10):
from two states of one record, whatever the model's counter of consumed inputs (log entry 5), the same instruction is
fetched and the same faults are raised; a step that completes leaves one record and the counter alone, except that
`Cxkk`, and `Fx0A` with a key down, may leave another byte in Vx, by the input they read, and count it: `Cxkk` only when
the bytes differ, `Fx0A` only when more than one key is down. The host's operations leave one record and the counter
alone. -/
def Obligations.CounterOnlyPicksInputs : Prop :=
  ∀ s t : State, s.toRecord = t.toRecord →
    fetchInstr s = fetchInstr t ∧ (∀ f, step s = .fault f ↔ step t = .fault f) ∧
    (∀ (i : Instr) (s' : State), fetchInstr s = .ok i → step s = .next s' →
      ∃ t', step t = .next t' ∧
        ((∀ x kk, i ≠ .rnd x kk) → ((∀ x, i ≠ .ldVxK x) ∨ s.key = 0) →
          t'.toRecord = s'.toRecord ∧ s'.draws = s.draws) ∧
        (∀ x kk, i = .rnd x kk →
          s'.draws = s.draws + 1 ∧ UnchangedBut (fun p => p = .reg x ∨ p = .draws) s' t' ∧
          (Config.rnd s.draws = Config.rnd t.draws → t'.toRecord = s'.toRecord)) ∧
        (∀ x, i = .ldVxK x → s.key ≠ 0 →
          s'.draws = s.draws + 1 ∧ UnchangedBut (fun p => p = .reg x ∨ p = .draws) s' t' ∧
          ((∀ k l : Fin 16, s.key.getLsbD k.val = true → s.key.getLsbD l.val = true → k = l) →
            t'.toRecord = s'.toRecord))) ∧
    (∀ op : Operation, op ≠ .step →
      (operate op s).toRecord = (operate op t).toRecord ∧ (operate op s).draws = s.draws)
end

