-- ==== Sys2Proof/Laws/Decode.lean ====
section
/-!
SUPPORT. The laws of instruction words: slices and packed words as numbers, each field of each packed word, and a word
as the packing of its fields (spec/30_encoding.md R71).
-/

namespace Sys2Proof

/-! ## Words as numbers -/

theorem toNat_append_eq {m n : Nat} (a : BitVec m) (b : BitVec n) :
    (a ++ b).toNat = a.toNat * 2 ^ n + b.toNat := by
  rw [BitVec.toNat_append, ← Nat.shiftLeft_add_eq_or_of_lt b.isLt, Nat.shiftLeft_eq]

theorem toNat_slice (w : Word) (lo len : Nat) : (w.extractLsb' lo len).toNat = w.toNat / 2 ^ lo % 2 ^ len := by
  rw [BitVec.extractLsb'_toNat, Nat.shiftRight_eq_div_pow]

theorem toNat_opOf (w : Word) : (opOf w).toNat = w.toNat / 4096 % 16 := toNat_slice w 12 4
theorem toNat_xOf (w : Word) : (xOf w).toNat = w.toNat / 256 % 16 := toNat_slice w 8 4
theorem toNat_yOf (w : Word) : (yOf w).toNat = w.toNat / 16 % 16 := toNat_slice w 4 4
theorem toNat_nOf (w : Word) : (nOf w).toNat = w.toNat % 16 := by
  have h := toNat_slice w 0 4
  rwa [Nat.pow_zero, Nat.div_one] at h
theorem toNat_kkOf (w : Word) : (kkOf w).toNat = w.toNat % 256 := by
  have h := toNat_slice w 0 8
  rwa [Nat.pow_zero, Nat.div_one] at h
theorem toNat_addrOf (w : Word) : (addrOf w).toNat = w.toNat % 4096 := by
  have h := toNat_slice w 0 12
  rwa [Nat.pow_zero, Nat.div_one] at h
theorem toNat_highByte (w : Word) : (highByte w).toNat = w.toNat / 256 % 256 := toNat_slice w 8 8
theorem toNat_lowByte (w : Word) : (lowByte w).toNat = w.toNat % 256 := by
  have h := toNat_slice w 0 8
  rwa [Nat.pow_zero, Nat.div_one] at h

theorem toNat_packXYN (op x y n : Nibble) :
    (packXYN op x y n).toNat = op.toNat * 4096 + x.toNat * 256 + y.toNat * 16 + n.toNat := by
  change (op ++ x ++ y ++ n : BitVec (4 + 4 + 4 + 4)).toNat = _
  simp only [toNat_append_eq]; omega

theorem toNat_packXK (op x : Nibble) (kk : Byte) :
    (packXK op x kk).toNat = op.toNat * 4096 + x.toNat * 256 + kk.toNat := by
  change (op ++ x ++ kk : BitVec (4 + 4 + 8)).toNat = _
  simp only [toNat_append_eq]; omega

theorem toNat_packA (op : Nibble) (addr : Addr) : (packA op addr).toNat = op.toNat * 4096 + addr.toNat := by
  change (op ++ addr : BitVec (4 + 12)).toNat = _
  simp only [toNat_append_eq]; omega

/-- A word from its bytes, the first one high (20_memory.md R52). -/
theorem toNat_wordOfBytes (b0 b1 : Byte) : (wordOfBytes b0 b1).toNat = b0.toNat * 256 + b1.toNat := by
  change (b0 ++ b1 : BitVec (8 + 8)).toNat = _
  simp only [toNat_append_eq]; omega

/-! ## The fields of a packed word -/

@[simp] theorem opOf_packXYN (op x y n : Nibble) :
    opOf (packXYN op x y n) = op := by
  apply BitVec.eq_of_toNat_eq; rw [toNat_opOf, toNat_packXYN]; omega

@[simp] theorem xOf_packXYN (op x y n : Nibble) :
    xOf (packXYN op x y n) = x := by
  apply BitVec.eq_of_toNat_eq; rw [toNat_xOf, toNat_packXYN]; omega

@[simp] theorem yOf_packXYN (op x y n : Nibble) :
    yOf (packXYN op x y n) = y := by
  apply BitVec.eq_of_toNat_eq; rw [toNat_yOf, toNat_packXYN]; omega

@[simp] theorem nOf_packXYN (op x y n : Nibble) :
    nOf (packXYN op x y n) = n := by
  apply BitVec.eq_of_toNat_eq; rw [toNat_nOf, toNat_packXYN]; omega

@[simp] theorem opOf_packXK (op x : Nibble) (kk : Byte) :
    opOf (packXK op x kk) = op := by
  apply BitVec.eq_of_toNat_eq; rw [toNat_opOf, toNat_packXK]; omega

@[simp] theorem xOf_packXK (op x : Nibble) (kk : Byte) :
    xOf (packXK op x kk) = x := by
  apply BitVec.eq_of_toNat_eq; rw [toNat_xOf, toNat_packXK]; omega

@[simp] theorem kkOf_packXK (op x : Nibble) (kk : Byte) :
    kkOf (packXK op x kk) = kk := by
  apply BitVec.eq_of_toNat_eq; rw [toNat_kkOf, toNat_packXK]; omega

@[simp] theorem opOf_packA (op : Nibble) (addr : Addr) :
    opOf (packA op addr) = op := by
  apply BitVec.eq_of_toNat_eq; rw [toNat_opOf, toNat_packA]; omega

@[simp] theorem addrOf_packA (op : Nibble) (addr : Addr) :
    addrOf (packA op addr) = addr := by
  apply BitVec.eq_of_toNat_eq; rw [toNat_addrOf, toNat_packA]; omega

@[simp] theorem highByte_wordOfBytes (b0 b1 : Byte) :
    highByte (wordOfBytes b0 b1) = b0 := by
  apply BitVec.eq_of_toNat_eq; rw [toNat_highByte, toNat_wordOfBytes]; omega

@[simp] theorem lowByte_wordOfBytes (b0 b1 : Byte) :
    lowByte (wordOfBytes b0 b1) = b1 := by
  apply BitVec.eq_of_toNat_eq; rw [toNat_lowByte, toNat_wordOfBytes]; omega

/-! ## A word is the packing of its fields -/

@[simp] theorem packXYN_fields (w : Word) :
    packXYN (opOf w) (xOf w) (yOf w) (nOf w) = w := by
  apply BitVec.eq_of_toNat_eq; rw [toNat_packXYN, toNat_opOf, toNat_xOf, toNat_yOf, toNat_nOf]
  have := w.isLt; omega

@[simp] theorem packXK_fields (w : Word) :
    packXK (opOf w) (xOf w) (kkOf w) = w := by
  apply BitVec.eq_of_toNat_eq; rw [toNat_packXK, toNat_opOf, toNat_xOf, toNat_kkOf]
  have := w.isLt; omega

@[simp] theorem packA_fields (w : Word) :
    packA (opOf w) (addrOf w) = w := by
  apply BitVec.eq_of_toNat_eq; rw [toNat_packA, toNat_opOf, toNat_addrOf]
  have := w.isLt; omega

@[simp] theorem wordOfBytes_bytes (w : Word) :
    wordOfBytes (highByte w) (lowByte w) = w := by
  apply BitVec.eq_of_toNat_eq; rw [toNat_wordOfBytes, toNat_highByte, toNat_lowByte]
  have := w.isLt; omega

/-! ## What it says of a word to match a row, by the mask of the row (R76) -/

/-- A mask of the first digit keeps the family. -/
theorem and_mask_family (w : Word) (op : Nibble) : w &&& 0xF000 = packA op 0 ↔ opOf w = op := by
  have h : w &&& 0xF000 = packA (opOf w) 0 := by
    conv_lhs => rw [← packA_fields w]
    change (opOf w ++ addrOf w : BitVec (4 + 12)) &&& ((0xF : Nibble) ++ (0 : Addr)) = _
    rw [BitVec.and_append, show opOf w &&& 0xF = opOf w from BitVec.and_allOnes,
      show addrOf w &&& 0 = 0 from BitVec.and_zero]
    rfl
  rw [h]
  exact ⟨fun e => by simpa using congrArg opOf e, fun e => by rw [e]⟩

/-- A mask of the first and the last digit keeps the family and the 4-bit function code. -/
theorem and_mask_function4 (w : Word) (op n : Nibble) :
    w &&& 0xF00F = packXYN op 0 0 n ↔ opOf w = op ∧ nOf w = n := by
  have h : w &&& 0xF00F = packXYN (opOf w) 0 0 (nOf w) := by
    conv_lhs => rw [← packXYN_fields w]
    change (opOf w ++ xOf w ++ yOf w ++ nOf w : BitVec (4 + 4 + 4 + 4)) &&&
      ((0xF : Nibble) ++ (0 : Nibble) ++ (0 : Nibble) ++ (0xF : Nibble)) = _
    rw [BitVec.and_append, BitVec.and_append, BitVec.and_append, show opOf w &&& 0xF = opOf w from BitVec.and_allOnes,
      show nOf w &&& 0xF = nOf w from BitVec.and_allOnes, show xOf w &&& 0 = 0 from BitVec.and_zero,
      show yOf w &&& 0 = 0 from BitVec.and_zero]
    rfl
  rw [h]
  exact ⟨fun e => ⟨by simpa using congrArg opOf e, by simpa using congrArg nOf e⟩, fun e => by rw [e.1, e.2]⟩

/-- A mask of the first and the last two digits keeps the family and the 8-bit function code. -/
theorem and_mask_function8 (w : Word) (op : Nibble) (kk : Byte) :
    w &&& 0xF0FF = packXK op 0 kk ↔ opOf w = op ∧ kkOf w = kk := by
  have h : w &&& 0xF0FF = packXK (opOf w) 0 (kkOf w) := by
    conv_lhs => rw [← packXK_fields w]
    change (opOf w ++ xOf w ++ kkOf w : BitVec (4 + 4 + 8)) &&& ((0xF : Nibble) ++ (0 : Nibble) ++ (0xFF : Byte)) = _
    rw [BitVec.and_append, BitVec.and_append, show opOf w &&& 0xF = opOf w from BitVec.and_allOnes,
      show kkOf w &&& 0xFF = kkOf w from BitVec.and_allOnes, show xOf w &&& 0 = 0 from BitVec.and_zero]
    rfl
  rw [h]
  exact ⟨fun e => ⟨by simpa using congrArg opOf e, by simpa using congrArg kkOf e⟩, fun e => by rw [e.1, e.2]⟩

/-- A mask of every digit keeps the word. -/
theorem and_mask_word (w p : Word) : w &&& 0xFFFF = p ↔ w = p := by
  rw [show w &&& 0xFFFF = w from BitVec.and_allOnes]

/-! ## Which words each family rejects (R74, R77) -/

theorem decodeFamily0_error (w : Word) :
    decodeFamily0 w = .error (.unsupportedOpcode w) ↔ w.toNat ≠ 0x00E0 ∧ w.toNat ≠ 0x00EE := by
  unfold decodeFamily0
  split <;> simp_all

theorem decodeFamily8_error (w : Word) :
    decodeFamily8 w = .error (.unsupportedOpcode w) ↔ (nOf w).toNat ∉ [0, 1, 2, 3, 4, 5, 6, 7, 0xE] := by
  unfold decodeFamily8
  split <;> simp_all

theorem decodeFamilyE_error (w : Word) :
    decodeFamilyE w = .error (.unsupportedOpcode w) ↔ (kkOf w).toNat ∉ [0x9E, 0xA1] := by
  unfold decodeFamilyE
  split <;> simp_all

theorem decodeFamilyF_error (w : Word) :
    decodeFamilyF w = .error (.unsupportedOpcode w) ↔
      (kkOf w).toNat ∉ [0x07, 0x0A, 0x15, 0x18, 0x1E, 0x29, 0x33, 0x55, 0x65] := by
  unfold decodeFamilyF
  split <;> simp_all

theorem decodeFixedZero_error (i : Instr) (w : Word) :
    decodeFixedZero i w = .error (.unsupportedOpcode w) ↔ (nOf w).toNat ≠ 0 := by
  unfold decodeFixedZero
  split <;> simp_all

end Sys2Proof
end

