-- ==== Sys2Proof/Laws/Display.lean ====
section
/-!
SUPPORT. Drawing a sprite as plotting a list of distinct cells: what plotting does to each cell and to the collision
flag, whatever the order (spec/44_display.md R173, R174, R176).
-/

namespace Sys2Proof.Machine

/-- Plotting toggles the cell plotted and no other (R171). -/
theorem plot_cell (d : FrameBuffer × Bool) (idx c : Nat) (h : idx < 2048) :
    (plot d idx).1.getLsbD c = (d.1.getLsbD c ^^ decide (idx = c)) := by
  simp [plot, h]

/-- Plotting a cell that was 1 is a collision (R174). -/
theorem plot_hit (d : FrameBuffer × Bool) (idx : Nat) : (plot d idx).2 = (d.2 || d.1.getLsbD idx) := rfl

/-- Plotting distinct cells toggles exactly them. -/
theorem foldl_plot_cell (l : List Nat) (d : FrameBuffer × Bool) (hl : ∀ p ∈ l, p < 2048) (hd : l.Nodup) (c : Nat) :
    (l.foldl plot d).1.getLsbD c = (d.1.getLsbD c ^^ decide (c ∈ l)) := by
  induction l generalizing d with
  | nil => simp
  | cons p l ih =>
    rw [List.nodup_cons] at hd
    rw [List.foldl_cons, ih _ (fun q hq => hl q (List.mem_cons_of_mem _ hq)) hd.2,
      plot_cell _ _ _ (hl p List.mem_cons_self)]
    by_cases hp : p = c
    · subst hp; simp [hd.1]
    · simp [hp, Ne.symm hp]

/-- Plotting distinct cells collides exactly when one of them was 1 before. -/
theorem foldl_plot_hit (l : List Nat) (d : FrameBuffer × Bool) (hl : ∀ p ∈ l, p < 2048) (hd : l.Nodup) :
    (l.foldl plot d).2 = (d.2 || l.any (fun p => d.1.getLsbD p)) := by
  induction l generalizing d with
  | nil => simp
  | cons p l ih =>
    rw [List.nodup_cons] at hd
    rw [List.foldl_cons, ih _ (fun q hq => hl q (List.mem_cons_of_mem _ hq)) hd.2, plot_hit, List.any_cons,
      Bool.or_assoc]
    congr 2
    rw [Bool.eq_iff_iff, List.any_eq_true, List.any_eq_true]
    refine exists_congr (fun q => and_congr_right (fun hq => ?_))
    rw [plot_cell _ _ _ (hl p List.mem_cons_self)]
    have : p ≠ q := fun h => hd.1 (h ▸ hq)
    simp [this]

/-- The cells one sprite row toggles, in drawing order. -/
def rowTargets (b : Byte) (px py row : Nat) : List Nat :=
  ((List.range 8).filter (fun col => b.getLsbD (7 - col))).map (cellIndex px py row)

/-- The cells a sprite toggles, from row number `row` on, in drawing order. -/
def spriteTargets (px py : Nat) : Nat → List Byte → List Nat
  | _, []        => []
  | row, b :: bs => rowTargets b px py row ++ spriteTargets px py (row + 1) bs

theorem drawRow_eq (b : Byte) (px py row : Nat) (d : FrameBuffer × Bool) :
    drawRow b px py row d = (rowTargets b px py row).foldl plot d := by
  simp only [drawRow, rowTargets, List.foldl_map, List.foldl_filter]

theorem drawRows_eq (px py row : Nat) (bs : List Byte) (d : FrameBuffer × Bool) :
    drawRows px py row bs d = (spriteTargets px py row bs).foldl plot d := by
  induction bs generalizing row d with
  | nil => rfl
  | cons b bs ih => rw [drawRows, ih, drawRow_eq, spriteTargets, List.foldl_append]

/-- Drawing a sprite is plotting its cells one after another. -/
theorem drawSprite_eq (px py : Nat) (rows : List Byte) (fb : FrameBuffer) :
    drawSprite px py rows fb = (spriteTargets px py 0 rows).foldl plot (fb, false) := drawRows_eq px py 0 rows _

theorem mem_rowTargets (b : Byte) (px py row c : Nat) :
    c ∈ rowTargets b px py row ↔ ∃ col, col < 8 ∧ b.getLsbD (7 - col) = true ∧ cellIndex px py row col = c := by
  simp [rowTargets, and_assoc]

/-- A cell is a sprite's target when some bit that is 1 falls on it (R171). -/
theorem mem_spriteTargets (px py row : Nat) (bs : List Byte) (c : Nat) :
    c ∈ spriteTargets px py row bs ↔
      ∃ k, k < bs.length ∧ ∃ col, col < 8 ∧ (bs.getD k 0).getLsbD (7 - col) = true ∧
        cellIndex px py (row + k) col = c := by
  induction bs generalizing row with
  | nil => simp [spriteTargets]
  | cons b bs ih =>
    rw [spriteTargets, List.mem_append, mem_rowTargets, ih]
    constructor
    · rintro (⟨col, hc, hb, h⟩ | ⟨k, hk, col, hc, hb, h⟩)
      · exact ⟨0, by simp, col, hc, hb, h⟩
      · refine ⟨k + 1, by simpa using hk, col, hc, by simpa using hb, ?_⟩
        rw [← h]; congr 1; omega
    · rintro ⟨k, hk, col, hc, hb, h⟩
      cases k with
      | zero => exact .inl ⟨col, hc, hb, h⟩
      | succ k =>
        refine .inr ⟨k, by simpa using hk, col, hc, by simpa using hb, ?_⟩
        rw [← h]; congr 1; omega

theorem cellIndex_lt (px py row col : Nat) : cellIndex px py row col < 2048 := Nat.mod_lt _ (by decide)

theorem spriteTargets_lt (px py row : Nat) (bs : List Byte) : ∀ c ∈ spriteTargets px py row bs, c < 2048 := by
  intro c hc
  obtain ⟨k, -, col, -, -, rfl⟩ := (mem_spriteTargets px py row bs c).1 hc
  exact cellIndex_lt _ _ _ _

/-- Two different bits of a sprite of at most 32 rows never fall on the same cell (R173). -/
theorem cellIndex_inj {px py r1 r2 c1 c2 : Nat} (h1 : c1 < 8) (h2 : c2 < 8) (hr : r1 < r2 + 31) (hr' : r2 < r1 + 31)
    (h : cellIndex px py r1 c1 = cellIndex px py r2 c2) : r1 = r2 ∧ c1 = c2 := by
  unfold cellIndex at h
  omega

theorem rowTargets_nodup (b : Byte) (px py row : Nat) : (rowTargets b px py row).Nodup := by
  refine List.Nodup.map_on ?_ (List.nodup_range.filter _)
  intro c1 h1 c2 h2 h
  simp only [List.mem_filter, List.mem_range] at h1 h2
  exact (cellIndex_inj h1.1 h2.1 (by omega) (by omega) h).2

theorem spriteTargets_nodup (px py row : Nat) (bs : List Byte) (hl : bs.length ≤ 31) :
    (spriteTargets px py row bs).Nodup := by
  induction bs generalizing row with
  | nil => simp [spriteTargets]
  | cons b bs ih =>
    rw [List.length_cons] at hl
    refine List.nodup_append.2 ⟨rowTargets_nodup b px py row, ih (row + 1) (by omega), ?_⟩
    intro c hc d hd hcd
    subst hcd
    obtain ⟨c1, h1, -, e1⟩ := (mem_rowTargets _ _ _ _ _).1 hc
    obtain ⟨k, hk, c2, h2, -, e2⟩ := (mem_spriteTargets _ _ _ _ _).1 hd
    have := (cellIndex_inj h1 h2 (by omega) (by omega) (e1.trans e2.symm)).1
    omega

/-- A drawn sprite toggles exactly its target cells. -/
theorem drawSprite_cell (px py : Nat) (rows : List Byte) (fb : FrameBuffer) (hl : rows.length ≤ 31) (c : Nat) :
    (drawSprite px py rows fb).1.getLsbD c = (fb.getLsbD c ^^ decide (c ∈ spriteTargets px py 0 rows)) := by
  rw [drawSprite_eq, foldl_plot_cell _ _ (spriteTargets_lt _ _ _ _) (spriteTargets_nodup _ _ _ _ hl)]

/-- A drawn sprite collides exactly when a target cell was 1 before. -/
theorem drawSprite_hit (px py : Nat) (rows : List Byte) (fb : FrameBuffer) (hl : rows.length ≤ 31) :
    (drawSprite px py rows fb).2 = (spriteTargets px py 0 rows).any (fun c => fb.getLsbD c) := by
  rw [drawSprite_eq, foldl_plot_hit _ _ (spriteTargets_lt _ _ _ _) (spriteTargets_nodup _ _ _ _ hl)]
  simp

end Sys2Proof.Machine
end

