-- ==== Sys2Proof/Laws/Memory.lean ====
section
/-!
SUPPORT. The laws of memory: what a read sees after each memory operation, and that every operation keeps the canonical
form (spec/20_memory.md R57).
-/

namespace Sys2Proof.Machine

/-! ## Read after write -/

@[simp] theorem Memory.read_nil (a : Nat) : Memory.read [] a = initialByte a := rfl

theorem Memory.read_cons (k : Nat) (b : Byte) (m : Memory) (a : Nat) :
    Memory.read ((k, b) :: m) a = if k = a then b else Memory.read m a := rfl

theorem Memory.read_erase (m : Memory) (a p : Nat) :
    Memory.read (Memory.erase m a) p = if p = a then initialByte p else Memory.read m p := by
  induction m with
  | nil => simp [Memory.erase]
  | cons c m ih =>
    obtain ⟨k, b⟩ := c
    simp only [Memory.erase, List.filter_cons] at ih ⊢
    by_cases hk : k = a
    · simp only [hk, bne_self_eq_false, Bool.false_eq_true, if_false, ih, Memory.read_cons]
      split <;> simp_all [eq_comm]
    · simp only [bne_iff_ne, ne_eq, hk, not_false_eq_true, if_true, Memory.read_cons, ih]
      split <;> split <;> simp_all

theorem Memory.read_insertCell (m : Memory) (a p : Nat) (b : Byte) (h : ∀ c ∈ m, c.1 ≠ a) :
    Memory.read (Memory.insertCell m a b) p = if p = a then b else Memory.read m p := by
  induction m with
  | nil => simp [Memory.insertCell, Memory.read_cons, eq_comm]
  | cons c m ih =>
    obtain ⟨k, d⟩ := c
    have hk : k ≠ a := h (k, d) List.mem_cons_self
    have ih := ih (fun c hc => h c (List.mem_cons_of_mem _ hc))
    by_cases hp : p = a
    · subst hp
      simp only [Memory.insertCell]
      split <;> simp_all [Memory.read_cons]
    · simp only [Memory.insertCell]
      split <;> simp_all [Memory.read_cons, eq_comm]

theorem Memory.erase_no_key (m : Memory) (a : Nat) : ∀ c ∈ Memory.erase m a, c.1 ≠ a := by
  intro c hc
  simp only [Memory.erase, List.mem_filter, bne_iff_ne] at hc
  exact hc.2

/-- A read after a write: the byte written at that address, and the old byte everywhere else. -/
theorem Memory.read_write (m : Memory) (a p : Nat) (b : Byte) :
    Memory.read (Memory.write m a b) p = if p = a then b else Memory.read m p := by
  unfold Memory.write
  split
  · rename_i h
    rw [Memory.read_erase]
    split <;> simp_all
  · rw [Memory.read_insertCell _ _ _ _ (Memory.erase_no_key m a), Memory.read_erase]
    split <;> simp_all

@[simp] theorem Memory.read_write_self (m : Memory) (a : Nat) (b : Byte) :
    Memory.read (Memory.write m a b) a = b := by simp [Memory.read_write]

theorem Memory.read_write_of_ne (m : Memory) {a p : Nat} (b : Byte) (h : p ≠ a) :
    Memory.read (Memory.write m a b) p = Memory.read m p := by simp [Memory.read_write, h]

/-- A read after bytes were stored: the byte stored at that place of the list, and the old byte outside. -/
theorem Memory.read_writeBytes (m : Memory) (a p : Nat) (bs : List Byte) :
    Memory.read (Memory.writeBytes m a bs) p =
      if a ≤ p ∧ p < a + bs.length then bs.getD (p - a) 0 else Memory.read m p := by
  induction bs generalizing m a with
  | nil => simp [Memory.writeBytes]
  | cons b bs ih =>
    simp only [Memory.writeBytes, ih, Memory.read_write, List.length_cons]
    by_cases hp : p = a
    · subst hp; simp
    · by_cases h1 : a + 1 ≤ p ∧ p < a + 1 + bs.length
      · have h2 : a ≤ p ∧ p < a + (bs.length + 1) := by omega
        have h3 : p - a = (p - (a + 1)) + 1 := by omega
        simp only [h1, h2, and_self, if_true, h3, List.getD_cons_succ]
      · have h2 : ¬ (a ≤ p ∧ p < a + (bs.length + 1)) := by omega
        rw [if_neg h1, if_neg h2, if_neg hp]

@[simp] theorem Memory.length_readBytes (m : Memory) (a n : Nat) : (Memory.readBytes m a n).length = n := by
  induction n generalizing a with
  | zero => rfl
  | succ n ih => simp [Memory.readBytes, ih]

/-- Byte `k` of a block read is the byte at `a + k`. -/
theorem Memory.getD_readBytes (m : Memory) (a n k : Nat) (h : k < n) :
    (Memory.readBytes m a n).getD k 0 = Memory.read m (a + k) := by
  induction n generalizing a k with
  | zero => omega
  | succ n ih =>
    cases k with
    | zero => rfl
    | succ k =>
      simp only [Memory.readBytes, List.getD_cons_succ]
      rw [ih (a + 1) k (by omega)]
      congr 1; omega

/-- Two memories that read the same read the same blocks. -/
theorem Memory.readBytes_congr {m m' : Memory} (h : ∀ a, Memory.read m a = Memory.read m' a) (a n : Nat) :
    Memory.readBytes m a n = Memory.readBytes m' a n := by
  induction n generalizing a with
  | zero => rfl
  | succ n ih => simp [Memory.readBytes, h, ih]

/-! ## The canonical form -/

/-- Rising addresses, as an ordering of the whole list. -/
theorem Memory.rising_iff (m : Memory) : Memory.rising m = true ↔ m.Pairwise (fun c d => c.1 < d.1) := by
  induction m with
  | nil => simp [Memory.rising]
  | cons c m ih =>
    cases m with
    | nil => simp [Memory.rising]
    | cons d m =>
      obtain ⟨a, b⟩ := c
      obtain ⟨k, e⟩ := d
      simp only [Memory.rising, Bool.and_eq_true, decide_eq_true_eq, ih, List.pairwise_cons, List.mem_cons,
        forall_eq_or_imp]
      constructor
      · rintro ⟨h, h1, h2⟩
        exact ⟨⟨h, fun x hx => Nat.lt_trans h (h1 x hx)⟩, h1, h2⟩
      · rintro ⟨⟨h, -⟩, h1, h2⟩
        exact ⟨h, h1, h2⟩

theorem Memory.wf_iff (m : Memory) :
    Memory.wf m = true ↔
      m.Pairwise (fun c d => c.1 < d.1) ∧ ∀ c ∈ m, c.1 < 4096 ∧ c.2 ≠ initialByte c.1 := by
  simp [Memory.wf, Memory.rising_iff]

theorem Memory.mem_insertCell (m : Memory) (a : Nat) (b : Byte) (c : Host.Cell) :
    c ∈ Memory.insertCell m a b ↔ c = (a, b) ∨ c ∈ m := by
  induction m with
  | nil => simp [Memory.insertCell]
  | cons d m ih =>
    simp only [Memory.insertCell]
    split
    · simp
    · simp only [List.mem_cons, ih]; tauto

theorem Memory.pairwise_insertCell (m : Memory) (a : Nat) (b : Byte) (hm : m.Pairwise (fun c d => c.1 < d.1))
    (ha : ∀ c ∈ m, c.1 ≠ a) : (Memory.insertCell m a b).Pairwise (fun c d => c.1 < d.1) := by
  induction m with
  | nil => simp [Memory.insertCell]
  | cons d m ih =>
    obtain ⟨k, e⟩ := d
    rw [List.pairwise_cons] at hm
    have hk : k ≠ a := ha (k, e) List.mem_cons_self
    simp only [Memory.insertCell]
    split
    · rename_i hlt
      refine List.pairwise_cons.2 ⟨fun c hc => ?_, List.pairwise_cons.2 hm⟩
      rcases List.mem_cons.1 hc with rfl | hc
      · exact hlt
      · exact Nat.lt_trans hlt (hm.1 c hc)
    · rename_i hlt
      refine List.pairwise_cons.2 ⟨fun c hc => ?_, ih hm.2 (fun c hc => ha c (List.mem_cons_of_mem _ hc))⟩
      rcases (Memory.mem_insertCell m a b c).1 hc with rfl | hc
      · show k < a; omega
      · exact hm.1 c hc

@[simp] theorem Memory.wf_nil : Memory.wf [] = true := rfl

theorem Memory.wf_erase (m : Memory) (a : Nat) (h : Memory.wf m = true) : Memory.wf (Memory.erase m a) = true := by
  rw [Memory.wf_iff] at h ⊢
  exact ⟨h.1.filter _, fun c hc => h.2 c (List.mem_of_mem_filter hc)⟩

/-- A write to a cell of the machine keeps the canonical form. -/
theorem Memory.wf_write (m : Memory) (a : Nat) (b : Byte) (ha : a < 4096) (h : Memory.wf m = true) :
    Memory.wf (Memory.write m a b) = true := by
  unfold Memory.write
  split
  · exact Memory.wf_erase m a h
  · rename_i hb
    have he := (Memory.wf_iff _).1 (Memory.wf_erase m a h)
    rw [Memory.wf_iff]
    refine ⟨Memory.pairwise_insertCell _ _ _ he.1 (Memory.erase_no_key m a), fun c hc => ?_⟩
    rcases (Memory.mem_insertCell _ _ _ _).1 hc with rfl | hc
    · exact ⟨ha, hb⟩
    · exact he.2 c hc

/-- Storing bytes at cells of the machine keeps the canonical form. -/
theorem Memory.wf_writeBytes (m : Memory) (a : Nat) (bs : List Byte) (ha : a + bs.length ≤ 4096)
    (h : Memory.wf m = true) : Memory.wf (Memory.writeBytes m a bs) = true := by
  induction bs generalizing m a with
  | nil => exact h
  | cons b bs ih =>
    rw [List.length_cons] at ha
    exact ih _ _ (by omega) (Memory.wf_write m a b (by omega) h)

/-- The memory of reset has the canonical form. -/
theorem State.reset_mem_wf : Memory.wf State.reset.mem = true := rfl

/-- Memories in canonical form that read alike at every address are the same data. -/
theorem Memory.eq_of_read_eq (m m' : Memory) (h : Memory.wf m = true) (h' : Memory.wf m' = true)
    (hr : ∀ a, Memory.read m a = Memory.read m' a) : m = m' := by
  rw [Memory.wf_iff] at h h'
  induction m generalizing m' with
  | nil =>
    cases m' with
    | nil => rfl
    | cons d m' =>
      have := hr d.1
      rw [Memory.read_nil, show d :: m' = (d.1, d.2) :: m' from rfl, Memory.read_cons, if_pos rfl] at this
      exact absurd this.symm (h'.2 d List.mem_cons_self).2
  | cons c m ih =>
    have below : ∀ (l : Memory) (p : Nat), (∀ e ∈ l, p < e.1) → Memory.read l p = initialByte p := by
      intro l p hl
      induction l with
      | nil => rfl
      | cons e l ihl =>
        rw [show e :: l = (e.1, e.2) :: l from rfl, Memory.read_cons,
          if_neg (Nat.ne_of_gt (hl e List.mem_cons_self))]
        exact ihl (fun e he => hl e (List.mem_cons_of_mem _ he))
    obtain ⟨k, b⟩ := c
    have hkm := (List.pairwise_cons.1 h.1).1
    cases m' with
    | nil =>
      have := hr k
      rw [Memory.read_cons, if_pos rfl, Memory.read_nil] at this
      exact absurd this (h.2 (k, b) List.mem_cons_self).2
    | cons d m' =>
      obtain ⟨q, e⟩ := d
      have hqm := (List.pairwise_cons.1 h'.1).1
      have hkq : k = q := by
        rcases Nat.lt_trichotomy k q with hlt | heq | hgt
        · have := hr k
          rw [Memory.read_cons, if_pos rfl, below ((q, e) :: m') k (by
            intro x hx
            rcases List.mem_cons.1 hx with rfl | hx
            · exact hlt
            · exact Nat.lt_trans hlt (hqm x hx))] at this
          exact absurd this (h.2 (k, b) List.mem_cons_self).2
        · exact heq
        · have := hr q
          rw [below ((k, b) :: m) q (by
            intro x hx
            rcases List.mem_cons.1 hx with rfl | hx
            · exact hgt
            · exact Nat.lt_trans hgt (hkm x hx)), Memory.read_cons, if_pos rfl] at this
          exact absurd this.symm (h'.2 (q, e) List.mem_cons_self).2
      subst hkq
      have hb : b = e := by
        have := hr k
        rwa [Memory.read_cons, Memory.read_cons, if_pos rfl, if_pos rfl] at this
      subst hb
      congr 1
      refine ih m' ⟨(List.pairwise_cons.1 h.1).2, fun c hc => h.2 c (List.mem_cons_of_mem _ hc)⟩
        ⟨(List.pairwise_cons.1 h'.1).2, fun c hc => h'.2 c (List.mem_cons_of_mem _ hc)⟩ (fun p => ?_)
      by_cases hp : p = k
      · subst hp
        rw [below m p (fun x hx => hkm x hx), below m' p (fun x hx => hqm x hx)]
      · have := hr p
        rwa [Memory.read_cons, Memory.read_cons, if_neg (Ne.symm hp), if_neg (Ne.symm hp)] at this

end Sys2Proof.Machine
end

