-- ==== Sys2Proof/Laws/Ops.lean ====
section
/-!
SUPPORT. One lemma per shared operation: everything it can answer. Proofs about instructions cite these.
-/

namespace Sys2Proof.Machine

/-! ## Outcomes -/

/-- A sequential instruction always answers a next state: PC two further, all else as given (R24). -/
theorem sequential_eq (s : State) : sequential s = .next (s.setPc (s.pc + 2)) := rfl

/-- A skip always answers a next state that differs in PC alone (R24). -/
theorem skipIf_eq (c : Bool) (s : State) : skipIf c s = .next (s.setPc (if c then s.pc + 4 else s.pc + 2)) := rfl

/-- A jump always answers a next state that differs in PC alone (R104). -/
theorem jumpTo_eq (a : Word) (s : State) : jumpTo a s = .next (s.setPc a) := rfl

/-- Raising a fault is the fault, and nothing else (R203). -/
theorem raise_eq (f : Fault) : raise f = .fault f := rfl

/-- An access whose range lies in memory goes on (R55). -/
theorem withDataRange_inside {base count : Nat} (k : Result) (h : ¬ (1 ≤ count ∧ base + count - 1 > 4095)) :
    withDataRange base count k = k := if_neg h

/-- An access that passes 0xFFF faults with the highest address (R55). -/
theorem withDataRange_outside {base count : Nat} (k : Result) (h : 1 ≤ count ∧ base + count - 1 > 4095) :
    withDataRange base count k = .fault (.outOfBounds .data (base + count - 1)) := if_pos h

/-- An access that answers a next state lay in memory, and its effect is the given one. -/
theorem withDataRange_next {base count : Nat} {k : Result} {t : State} (h : withDataRange base count k = .next t) :
    ¬ (1 ≤ count ∧ base + count - 1 > 4095) ∧ k = .next t := by
  unfold withDataRange at h
  split at h
  · cases h
  · exact ⟨‹_›, h⟩

/-- An access faults exactly when its range passes 0xFFF, if its effect does not (R55). -/
theorem withDataRange_eq_fault {base count : Nat} {k : Result} {f : Fault} (hk : ∀ g, k ≠ .fault g) :
    withDataRange base count k = .fault f ↔
      (1 ≤ count ∧ base + count - 1 > 4095) ∧ f = .outOfBounds .data (base + count - 1) := by
  by_cases h : 1 ≤ count ∧ base + count - 1 > 4095
  · rw [withDataRange_outside k h]
    simp [h, eq_comm]
  · rw [withDataRange_inside k h]
    exact ⟨fun hf => absurd hf (hk f), fun hf => absurd hf.1 h⟩

/-- A key test with Vx at most 15 (R180). -/
theorem withKey_inside {x : Reg} {s : State} (k : Bool → Result) (h : (s.reg x).toNat ≤ 15) :
    withKey x s k = k (s.keyDown (s.reg x).toNat) := if_neg (by omega)

/-- A key test with Vx above 15 (R186). -/
theorem withKey_outside {x : Reg} {s : State} (k : Bool → Result) (h : (s.reg x).toNat > 15) :
    withKey x s k = .fault (.outOfBounds .keypad (s.reg x).toNat) := if_pos h

/-- A key test that answers a next state had Vx at most 15. -/
theorem withKey_next {x : Reg} {s t : State} {k : Bool → Result} (h : withKey x s k = .next t) :
    (s.reg x).toNat ≤ 15 ∧ k (s.keyDown (s.reg x).toNat) = .next t := by
  unfold withKey at h
  split at h
  · cases h
  · exact ⟨by omega, h⟩

/-- A key test faults exactly when Vx is above 15, if what follows it does not (R186). -/
theorem withKey_eq_fault {x : Reg} {s : State} {k : Bool → Result} {f : Fault} (hk : ∀ b g, k b ≠ .fault g) :
    withKey x s k = .fault f ↔ (s.reg x).toNat > 15 ∧ f = .outOfBounds .keypad (s.reg x).toNat := by
  by_cases h : (s.reg x).toNat > 15
  · rw [withKey_outside k h]
    simp [h, eq_comm]
  · rw [withKey_inside k (by omega)]
    exact ⟨fun hf => absurd hf (hk _ f), fun hf => absurd hf.1 h⟩

/-! ## The phases of a step -/

/-- A fetch from a cell and the next: the word of the two bytes (R52). -/
theorem fetch_inside {s : State} (h : s.pc.toNat ≤ 4094) :
    fetch s = .ok (wordOfBytes (s.byteAt s.pc.toNat) (s.byteAt (s.pc.toNat + 1))) := if_neg (by omega)

/-- A fetch past memory (R205). -/
theorem fetch_outside {s : State} (h : s.pc.toNat > 4094) :
    fetch s = .error (.outOfBounds .code s.pc.toNat) := if_pos h

/-- What a successful fetch and decode says. -/
theorem fetchInstr_ok {s : State} {i : Instr} (h : fetchInstr s = .ok i) :
    s.pc.toNat ≤ 4094 ∧
      decodeWord (wordOfBytes (s.byteAt s.pc.toNat) (s.byteAt (s.pc.toNat + 1))) = .ok i := by
  by_cases hp : s.pc.toNat ≤ 4094
  · refine ⟨hp, ?_⟩
    simp only [fetchInstr, fetch_inside hp] at h
    split at h
    · cases h
    · rename_i j hj
      cases h
      exact hj
  · simp only [fetchInstr, fetch_outside (by omega : s.pc.toNat > 4094)] at h
    cases h

/-- Fetch and decode depend on PC and the cells alone (R52). -/
theorem fetchInstr_congr {s t : State} (hm : ∀ a, t.byteAt a = s.byteAt a) (hp : t.pc = s.pc) :
    fetchInstr t = fetchInstr s := by
  simp only [fetchInstr, fetch, hm, hp]

/-- A timer counts down by one and stops at 0 (R33). -/
theorem toNat_countDown (b : Byte) : (countDown b).toNat = b.toNat - 1 := by
  revert b; decide

@[simp] theorem finish_next (s : State) : finish (.next s) = .next (tick s) := rfl
@[simp] theorem finish_fault (f : Fault) : finish (.fault f) = .fault f := rfl
@[simp] theorem finish_refused (r : Refusal) : finish (.refused r) = .refused r := rfl

/-- After Execute a next state is the ticked one (R250). -/
theorem finish_eq_next {r : Result} {t : State} : finish r = .next t ↔ ∃ u, r = .next u ∧ t = tick u := by
  cases r with
  | next s => simp [eq_comm]
  | fault f => simp
  | refused q => simp

theorem finish_eq_fault {r : Result} {f : Fault} : finish r = .fault f ↔ r = .fault f := by
  cases r <;> simp

/-! ## Flags (R126 to R132) -/

theorem toNat_flagByte (b : Bool) : (flagByte b).toNat = b.toNat := by cases b <;> rfl

theorem toNat_carryFlag (a b : Byte) : (carryFlag a b).toNat = if a.toNat + b.toNat > 255 then 1 else 0 := by
  rw [carryFlag, toNat_flagByte]; split <;> simp_all

theorem toNat_greaterFlag (a b : Byte) : (greaterFlag a b).toNat = if a.toNat > b.toNat then 1 else 0 := by
  rw [greaterFlag, toNat_flagByte]; split <;> simp_all

theorem toNat_lowBitFlag (a : Byte) : (lowBitFlag a).toNat = a.toNat % 2 := by
  revert a; decide

theorem toNat_highBitFlag (a : Byte) : (highBitFlag a).toNat = if a.toNat ≥ 128 then 1 else 0 := by
  revert a; decide

/-- The registers after the flag is written and then the result (R127): the result in Vx, the flag in VF unless `x` is
15, the others as before. -/
theorem reg_flagThenResult (flag : State → Byte) (x : Reg) (result : State → Byte) (s : State) (r : Reg) :
    (flagThenResult flag x result s).reg r =
      if x = r then result (s.setReg vf (flag s)) else if vf = r then flag s else s.reg r := by
  simp only [flagThenResult, State.reg_setReg]

/-- The destination holds the result, computed after VF was written (R127). -/
theorem reg_flagThenResult_self (flag : State → Byte) (x : Reg) (result : State → Byte) (s : State) :
    (flagThenResult flag x result s).reg x = result (s.setReg vf (flag s)) := by
  rw [reg_flagThenResult, if_pos rfl]

/-- VF holds the flag when it is not the destination (R127). -/
theorem reg_flagThenResult_vf (flag : State → Byte) {x : Reg} (result : State → Byte) (s : State) (h : x ≠ vf) :
    (flagThenResult flag x result s).reg vf = flag s := by
  rw [reg_flagThenResult, if_neg h, if_pos rfl]

/-- Nothing but the register file changes when the flag and the result are written. -/
theorem flagThenResult_frame (flag : State → Byte) (x : Reg) (result : State → Byte) (s : State) :
    flagThenResult flag x result s = { s with v := (flagThenResult flag x result s).v } := rfl

/-! ## Operands -/

@[simp] theorem toNat_zextAddr (a : Addr) : (zextAddr a).toNat = a.toNat := by
  have := a.isLt
  simp [zextAddr]; omega

@[simp] theorem toNat_zextByte (b : Byte) : (zextByte b).toNat = b.toNat := by
  have := b.isLt
  simp [zextByte]; omega

/-- `addr + V0` is not reduced (R103). -/
theorem toNat_offsetTarget (s : State) (a : Addr) : (offsetTarget s a).toNat = a.toNat + (s.reg 0).toNat := by
  have := a.isLt
  have := (s.reg 0).isLt
  simp only [offsetTarget, BitVec.toNat_add, toNat_zextAddr, toNat_zextByte]; omega

/-- `(I + Vx) mod 4096` (R151). -/
theorem toNat_indexSum (s : State) (x : Reg) : (indexSum s x).toNat = (s.i.toNat + (s.reg x).toNat) % 4096 := by
  simp only [indexSum, BitVec.toNat_ofNat]; omega

/-- The font table lies below 0x200 (R6). -/
theorem fontOrigin_le : fontOrigin ≤ 0x1B0 := Nat.le_of_lt_succ Config.fontOrigin.isLt

/-- `FONT_ORIGIN + 5 * Vx` needs no reduction (R152). -/
theorem toNat_fontAddr (s : State) (x : Reg) : (fontAddr s x).toNat = fontOrigin + 5 * (s.reg x).toNat := by
  have := fontOrigin_le
  have := (s.reg x).isLt
  simp only [fontAddr, BitVec.toNat_ofNat]; omega

/-- A cell outside the font holds 0 after reset, and a cell of the font its byte (R240). -/
theorem initialByte_eq (a : Nat) :
    initialByte a =
      if h : fontOrigin ≤ a ∧ a < fontOrigin + 80 then fontByte ⟨a - fontOrigin, by omega⟩ else 0 := by
  have := fontOrigin_le
  unfold initialByte
  split
  · rfl
  · rw [dif_neg]; omega

/-- The pressed keys are those whose latch bit is 1 (R182). -/
theorem mem_pressedKeys (key : BitVec 16) (k : Nat) : k ∈ pressedKeys key ↔ k < 16 ∧ key.getLsbD k = true := by
  simp [pressedKeys]

/-- No key is pressed exactly when the latch is 0. -/
theorem pressedKeys_eq_nil (key : BitVec 16) : pressedKeys key = [] ↔ key = 0 := by
  constructor
  · intro h
    apply BitVec.eq_of_getLsbD_eq
    intro k hk
    have : k ∉ pressedKeys key := by simp [h]
    rw [mem_pressedKeys] at this
    simp_all
  · rintro rfl
    rfl

/-- The key selected is a member of the set (R6, R182). -/
theorem selectKey_mem (draw : Nat) (key : BitVec 16) (ks : List Nat) (h : ks ≠ []) : selectKey draw key ks ∈ ks := by
  match ks, h with
  | [k], _ => simp [selectKey]
  | k :: q :: l, _ =>
    have hlt : Config.keyChoice draw key % (k :: q :: l).length < (k :: q :: l).length :=
      Nat.mod_lt _ (by simp)
    simp only [selectKey, List.getD_eq_getElem _ _ hlt]
    exact List.getElem_mem hlt

/-- With one key pressed the selection is determined (U7). -/
theorem selectKey_singleton (draw : Nat) (key : BitVec 16) (k : Nat) : selectKey draw key [k] = k := rfl

end Sys2Proof.Machine
end

