-- ==== Sys2Proof/Laws/Step.lean ====
section
/-!
SUPPORT. What a step can do, said once, and the registers after a block is loaded.
-/

namespace Sys2Proof.Machine

/-- A step that answers a next state fetched and decoded an instruction, executed it, and ticked the timers. -/
theorem step_next {s t : State} (h : step s = .next t) :
    ∃ i u, fetchInstr s = .ok i ∧ exec i s = .next u ∧ t = tick u := by
  unfold step at h
  split at h
  · cases h
  · rename_i i hi
    obtain ⟨u, hu, ht⟩ := finish_eq_next.1 h
    exact ⟨i, u, hi, hu, ht⟩

/-- A step from a decoded instruction. -/
theorem step_of_fetchInstr {s : State} {i : Instr} (h : fetchInstr s = .ok i) : step s = finish (exec i s) := by
  simp only [step, h]

/-- A step that faults failed to fetch or decode, or its instruction faulted (R213). -/
theorem step_fault {s : State} {f : Fault} (h : step s = .fault f) :
    fetchInstr s = .error f ∨ ∃ i, fetchInstr s = .ok i ∧ exec i s = .fault f := by
  unfold step at h
  split at h
  · rename_i g hg
    cases h
    exact .inl hg
  · rename_i i hi
    exact .inr ⟨i, hi, finish_eq_fault.1 h⟩

/-- The step as an operation of the surface, when it completes (R13). -/
theorem operate_step_next {s t : State} (h : step s = .next t) : operate .step s = t := by
  simp only [operate, h]

/-- The step as an operation of the surface, when it faults (R203). -/
theorem operate_step_fault {s : State} {f : Fault} (h : step s = .fault f) : operate .step s = s := by
  simp only [operate, h]

/-- A register number below 16 as a four-bit field. -/
theorem reg_ofNat_eq (k : Nat) (hk : k < 16) (r : Reg) : BitVec.ofNat 4 k = r ↔ k = r.toNat := by
  constructor
  · rintro rfl
    simp only [BitVec.toNat_ofNat]; omega
  · rintro rfl
    simp

/-- The registers after V0 to V(n-1) are loaded: register `r` below `n` holds the byte at I + r, the others are as
before (R156). -/
theorem reg_loadRegs (s : State) (n : Nat) (hn : n ≤ 16) (r : Reg) :
    (loadRegs s (List.range n)).reg r = if r.toNat < n then s.byteAt (effAddr s r.toNat) else s.reg r := by
  induction n with
  | zero => simp [loadRegs]
  | succ n ih =>
    have ih := ih (by omega)
    unfold loadRegs at ih ⊢
    rw [List.range_succ, List.foldl_append, List.foldl_cons, List.foldl_nil, State.reg_setReg, ih]
    by_cases hr : n = r.toNat
    · rw [if_pos ((reg_ofNat_eq n (by omega) r).2 hr), hr, if_pos (Nat.lt_succ_self _)]
    · rw [if_neg (fun h => hr ((reg_ofNat_eq n (by omega) r).1 h))]
      by_cases hlt : r.toNat < n
      · rw [if_pos hlt, if_pos (by omega)]
      · rw [if_neg hlt, if_neg (by omega)]

/-- Nothing but the register file changes when a block is loaded. -/
theorem loadRegs_frame (s : State) (l : List Nat) : loadRegs s l = { s with v := (loadRegs s l).v } := by
  unfold loadRegs
  have key : ∀ (t : State), { s with v := t.v } = t →
      l.foldl (fun t r => t.setReg (BitVec.ofNat 4 r) (s.byteAt (effAddr s r))) t =
        { s with v := (l.foldl (fun t r => t.setReg (BitVec.ofNat 4 r) (s.byteAt (effAddr s r))) t).v } := by
    induction l with
    | nil => intro t ht; exact ht.symm
    | cons a l ih =>
      intro t ht
      rw [List.foldl_cons]
      refine ih _ ?_
      rw [← ht]; rfl
  exact key s rfl

end Sys2Proof.Machine
end

