-- ==== Sys2Proof/Laws/Frames.lean ====
section
/-!
SUPPORT. How a frame is proved, field by field, and what follows from one.
-/

namespace Sys2Proof.Machine

/-- A frame from the fields of the state: each may be assumed outside `W`. -/
theorem unchangedBut_of {W : Part → Prop} {s t : State}
    (reg : ∀ r, ¬ W (.reg r) → t.reg r = s.reg r) (index : ¬ W .index → t.i = s.i) (pc : ¬ W .pc → t.pc = s.pc)
    (entry : ∀ k, ¬ W (.stackEntry k) → t.stack[k] = s.stack[k]) (sp : ¬ W .stackPointer → t.sp = s.sp)
    (dt : ¬ W .delayTimer → t.dt = s.dt) (st : ¬ W .soundTimer → t.st = s.st)
    (key : ∀ k, ¬ W (.key k) → t.key.getLsbD k.val = s.key.getLsbD k.val)
    (cell : ∀ c, ¬ W (.cell c) → t.fb.getLsbD c.val = s.fb.getLsbD c.val)
    (redraw : ¬ W .redraw → t.redraw = s.redraw) (memory : ∀ a, ¬ W (.memory a) → t.byteAt a = s.byteAt a)
    (draws : ¬ W .draws → t.draws = s.draws) : UnchangedBut W s t := by
  intro p hp
  cases p with
  | reg r => exact congrArg BitVec.toNat (reg r hp)
  | index => exact congrArg BitVec.toNat (index hp)
  | pc => exact congrArg BitVec.toNat (pc hp)
  | stackEntry k => exact congrArg BitVec.toNat (entry k hp)
  | stackPointer => exact congrArg Fin.val (sp hp)
  | delayTimer => exact congrArg BitVec.toNat (dt hp)
  | soundTimer => exact congrArg BitVec.toNat (st hp)
  | key k => exact congrArg Bool.toNat (key k hp)
  | cell c => exact congrArg Bool.toNat (cell c hp)
  | redraw => exact congrArg Bool.toNat (redraw hp)
  | memory a => exact congrArg BitVec.toNat (memory a hp)
  | draws => exact draws hp

/-- A frame for a state that differs in PC alone, or in PC and more of `W`. -/
theorem UnchangedBut.setPc {W : Part → Prop} {s t : State} (h : UnchangedBut W s t) (hpc : W .pc) (a : Word) :
    UnchangedBut W s (t.setPc a) := by
  intro p hp
  rw [← h p hp]
  cases p <;> first | rfl | exact absurd hpc hp

theorem UnchangedBut.refl (W : Part → Prop) (s : State) : UnchangedBut W s s := fun _ _ => rfl

theorem UnchangedBut.trans {W : Part → Prop} {s t u : State} (h : UnchangedBut W s t) (h' : UnchangedBut W t u) :
    UnchangedBut W s u := fun p hp => (h' p hp).trans (h p hp)

/-- Parts that may change more. -/
theorem UnchangedBut.weaken {W W' : Part → Prop} {s t : State} (h : UnchangedBut W s t) (hw : ∀ p, W p → W' p) :
    UnchangedBut W' s t := fun p hp => h p (fun hpw => hp (hw p hpw))

/-- The timer tick changes the timers alone. -/
theorem unchangedBut_tick (s : State) : UnchangedBut (fun p => p = .delayTimer ∨ p = .soundTimer) s (tick s) := by
  apply unchangedBut_of <;> simp

/-- A cell is a target of the sprite `Dxyn` draws from memory exactly when a bit that is 1 falls on it. -/
theorem mem_spriteTargets_iff (s : State) (x y : Reg) (n : Nibble) (c : Nat) :
    c ∈ spriteTargets (s.reg x).toNat (s.reg y).toNat 0 (Memory.readBytes s.mem (effAddr s 0) n.toNat) ↔
      SpriteCell s x y n c := by
  rw [mem_spriteTargets, SpriteCell, Memory.length_readBytes]
  constructor
  · rintro ⟨k, hk, col, hc, hb, h⟩
    rw [Memory.getD_readBytes _ _ _ _ hk] at hb
    exact ⟨k, col, hk, hc, hb, by rw [← h, cellIndex, Nat.zero_add]⟩
  · rintro ⟨k, col, hk, hc, hb, h⟩
    refine ⟨k, hk, col, hc, ?_, by rw [← h, cellIndex, Nat.zero_add]⟩
    rw [Memory.getD_readBytes _ _ _ _ hk]
    exact hb

end Sys2Proof.Machine
end

