-- ==== Sys2Proof/Laws/PerInstr.lean ====
section
/-!
SUPPORT. Statements for all instructions, one lemma per constructor. The family EncodesRow: the encoder's word carries
the fixed digits of the instruction's row of the opcode map, copied from spec/30_encoding.md R76 apart from the encoder.
-/

namespace Sys2Proof.Laws.EncodesRow

/-- The word of a well-formed instruction matches its row of R76. -/
def Statement (i : Instr) : Prop :=
  i.wellFormed = true → ∃ r, opcodeRows[i.rowIndex]? = some r ∧ r.matchesWord (encode i) = true

/-- A field the mask does not keep. -/
theorem and_none {w : Nat} (b : BitVec w) : b &&& 0 = 0 := BitVec.and_zero

/-- The mask of a format with four digits, taken digit by digit. -/
theorem matches_packXYN {r : OpcodeRow} (op x y n mx my mn : Nibble) (hm : r.mask = packXYN 0xF mx my mn)
    (hp : r.pattern = packXYN op (x &&& mx) (y &&& my) (n &&& mn)) : r.matchesWord (packXYN op x y n) = true := by
  rw [OpcodeRow.matchesWord, hm, hp, beq_iff_eq]
  change (op ++ x ++ y ++ n : BitVec (4 + 4 + 4 + 4)) &&& (0xF ++ mx ++ my ++ mn) = _
  rw [BitVec.and_append, BitVec.and_append, BitVec.and_append, show op &&& 0xF = op from BitVec.and_allOnes]
  rfl

/-- The mask of a format with two digits and a byte. -/
theorem matches_packXK {r : OpcodeRow} (op x mx : Nibble) (kk mk : Byte) (hm : r.mask = packXK 0xF mx mk)
    (hp : r.pattern = packXK op (x &&& mx) (kk &&& mk)) : r.matchesWord (packXK op x kk) = true := by
  rw [OpcodeRow.matchesWord, hm, hp, beq_iff_eq]
  change (op ++ x ++ kk : BitVec (4 + 4 + 8)) &&& (0xF ++ mx ++ mk) = _
  rw [BitVec.and_append, BitVec.and_append, show op &&& 0xF = op from BitVec.and_allOnes]
  rfl

/-- The mask of a format with a digit and an address. -/
theorem matches_packA {r : OpcodeRow} (op : Nibble) (a ma : Addr) (hm : r.mask = packA 0xF ma)
    (hp : r.pattern = packA op (a &&& ma)) : r.matchesWord (packA op a) = true := by
  rw [OpcodeRow.matchesWord, hm, hp, beq_iff_eq]
  change (op ++ a : BitVec (4 + 12)) &&& (0xF ++ ma) = _
  rw [BitVec.and_append, show op &&& 0xF = op from BitVec.and_allOnes]
  rfl

theorem cls : Statement .cls := fun _ =>
  ⟨_, rfl, by decide⟩
theorem ret : Statement .ret := fun _ =>
  ⟨_, rfl, by decide⟩
theorem jp (a : Addr) : Statement (.jp a) := fun _ =>
  ⟨_, rfl, matches_packA _ _ 0 (by decide) (by rw [and_none a]; decide)⟩
theorem call (a : Addr) : Statement (.call a) := fun _ =>
  ⟨_, rfl, matches_packA _ _ 0 (by decide) (by rw [and_none a]; decide)⟩
theorem seByte (x : Reg) (kk : Byte) : Statement (.seByte x kk) := fun _ =>
  ⟨_, rfl, matches_packXK _ _ 0 _ 0 (by decide) (by rw [and_none x, and_none kk]; decide)⟩
theorem sneByte (x : Reg) (kk : Byte) : Statement (.sneByte x kk) := fun _ =>
  ⟨_, rfl, matches_packXK _ _ 0 _ 0 (by decide) (by rw [and_none x, and_none kk]; decide)⟩
theorem seReg (x : Reg) (y : Reg) : Statement (.seReg x y) := fun _ =>
  ⟨_, rfl, matches_packXYN _ _ _ _ 0 0 0xF (by decide) (by rw [and_none x, and_none y]; decide)⟩
theorem ldByte (x : Reg) (kk : Byte) : Statement (.ldByte x kk) := fun _ =>
  ⟨_, rfl, matches_packXK _ _ 0 _ 0 (by decide) (by rw [and_none x, and_none kk]; decide)⟩
theorem addByte (x : Reg) (kk : Byte) : Statement (.addByte x kk) := fun _ =>
  ⟨_, rfl, matches_packXK _ _ 0 _ 0 (by decide) (by rw [and_none x, and_none kk]; decide)⟩
theorem ldReg (x : Reg) (y : Reg) : Statement (.ldReg x y) := fun _ =>
  ⟨_, rfl, matches_packXYN _ _ _ _ 0 0 0xF (by decide) (by rw [and_none x, and_none y]; decide)⟩
theorem orReg (x : Reg) (y : Reg) : Statement (.orReg x y) := fun _ =>
  ⟨_, rfl, matches_packXYN _ _ _ _ 0 0 0xF (by decide) (by rw [and_none x, and_none y]; decide)⟩
theorem andReg (x : Reg) (y : Reg) : Statement (.andReg x y) := fun _ =>
  ⟨_, rfl, matches_packXYN _ _ _ _ 0 0 0xF (by decide) (by rw [and_none x, and_none y]; decide)⟩
theorem xorReg (x : Reg) (y : Reg) : Statement (.xorReg x y) := fun _ =>
  ⟨_, rfl, matches_packXYN _ _ _ _ 0 0 0xF (by decide) (by rw [and_none x, and_none y]; decide)⟩
theorem addReg (x : Reg) (y : Reg) : Statement (.addReg x y) := fun _ =>
  ⟨_, rfl, matches_packXYN _ _ _ _ 0 0 0xF (by decide) (by rw [and_none x, and_none y]; decide)⟩
theorem subReg (x : Reg) (y : Reg) : Statement (.subReg x y) := fun _ =>
  ⟨_, rfl, matches_packXYN _ _ _ _ 0 0 0xF (by decide) (by rw [and_none x, and_none y]; decide)⟩
theorem shr (x : Reg) (y : Reg) : Statement (.shr x y) := fun _ =>
  ⟨_, rfl, matches_packXYN _ _ _ _ 0 0 0xF (by decide) (by rw [and_none x, and_none y]; decide)⟩
theorem subnReg (x : Reg) (y : Reg) : Statement (.subnReg x y) := fun _ =>
  ⟨_, rfl, matches_packXYN _ _ _ _ 0 0 0xF (by decide) (by rw [and_none x, and_none y]; decide)⟩
theorem shl (x : Reg) (y : Reg) : Statement (.shl x y) := fun _ =>
  ⟨_, rfl, matches_packXYN _ _ _ _ 0 0 0xF (by decide) (by rw [and_none x, and_none y]; decide)⟩
theorem sneReg (x : Reg) (y : Reg) : Statement (.sneReg x y) := fun _ =>
  ⟨_, rfl, matches_packXYN _ _ _ _ 0 0 0xF (by decide) (by rw [and_none x, and_none y]; decide)⟩
theorem ldI (a : Addr) : Statement (.ldI a) := fun _ =>
  ⟨_, rfl, matches_packA _ _ 0 (by decide) (by rw [and_none a]; decide)⟩
theorem jpV0 (a : Addr) : Statement (.jpV0 a) := fun _ =>
  ⟨_, rfl, matches_packA _ _ 0 (by decide) (by rw [and_none a]; decide)⟩
theorem rnd (x : Reg) (kk : Byte) : Statement (.rnd x kk) := fun _ =>
  ⟨_, rfl, matches_packXK _ _ 0 _ 0 (by decide) (by rw [and_none x, and_none kk]; decide)⟩
theorem drw (x : Reg) (y : Reg) (n : Nibble) : Statement (.drw x y n) := fun _ =>
  ⟨_, rfl, matches_packXYN _ _ _ _ 0 0 0 (by decide) (by rw [and_none x, and_none y, and_none n]; decide)⟩
theorem skp (x : Reg) : Statement (.skp x) := fun _ =>
  ⟨_, rfl, matches_packXK _ _ 0 _ 0xFF (by decide) (by rw [and_none x]; decide)⟩
theorem sknp (x : Reg) : Statement (.sknp x) := fun _ =>
  ⟨_, rfl, matches_packXK _ _ 0 _ 0xFF (by decide) (by rw [and_none x]; decide)⟩
theorem ldVxDt (x : Reg) : Statement (.ldVxDt x) := fun _ =>
  ⟨_, rfl, matches_packXK _ _ 0 _ 0xFF (by decide) (by rw [and_none x]; decide)⟩
theorem ldVxK (x : Reg) : Statement (.ldVxK x) := fun _ =>
  ⟨_, rfl, matches_packXK _ _ 0 _ 0xFF (by decide) (by rw [and_none x]; decide)⟩
theorem ldDtVx (x : Reg) : Statement (.ldDtVx x) := fun _ =>
  ⟨_, rfl, matches_packXK _ _ 0 _ 0xFF (by decide) (by rw [and_none x]; decide)⟩
theorem ldStVx (x : Reg) : Statement (.ldStVx x) := fun _ =>
  ⟨_, rfl, matches_packXK _ _ 0 _ 0xFF (by decide) (by rw [and_none x]; decide)⟩
theorem addI (x : Reg) : Statement (.addI x) := fun _ =>
  ⟨_, rfl, matches_packXK _ _ 0 _ 0xFF (by decide) (by rw [and_none x]; decide)⟩
theorem ldF (x : Reg) : Statement (.ldF x) := fun _ =>
  ⟨_, rfl, matches_packXK _ _ 0 _ 0xFF (by decide) (by rw [and_none x]; decide)⟩
theorem ldB (x : Reg) : Statement (.ldB x) := fun _ =>
  ⟨_, rfl, matches_packXK _ _ 0 _ 0xFF (by decide) (by rw [and_none x]; decide)⟩
theorem ldMemVx (x : Reg) : Statement (.ldMemVx x) := fun _ =>
  ⟨_, rfl, matches_packXK _ _ 0 _ 0xFF (by decide) (by rw [and_none x]; decide)⟩
theorem ldVxMem (x : Reg) : Statement (.ldVxMem x) := fun _ =>
  ⟨_, rfl, matches_packXK _ _ 0 _ 0xFF (by decide) (by rw [and_none x]; decide)⟩

end Sys2Proof.Laws.EncodesRow
end

