-- ==== Sys2Proof/Tests/Slice0.lean ====
section
/-!
SUPPORT. Tests of the model against spec/95_test_vectors.md (each test names its vectors), the ill-formed words, and a
witness for the hypotheses of every statement that has some. One step on a small state each. Cells below 0x200 hold the
free font, so no test rests on one.
-/

namespace Sys2Proof.Tests

open Sys2Proof.Machine

/-- Reset, with one word at 0x200. -/
def word (w : Nat) : State := State.reset.withFetchWord 16 w

/-- Reset, with one word at the given address, and PC there. -/
def wordAt (a w : Nat) : State := (State.reset.setPc (BitVec.ofNat 16 a)).withFetchWord 16 w

/-- The state after one step. -/
def after (s : State) : State := operate .step s

/-- The fault of one step, if it faults. -/
def faultOf (s : State) : Option Fault :=
  match step s with
  | .fault f => some f
  | _        => none

/-- V1, V2 and VF set. -/
def ops (s : State) (v1 v2 vF : Byte) : State := ((s.setReg 1 v1).setReg 2 v2).setReg 15 vF

/-- PC, V1, V2 and VF after one step. -/
def results (s : State) : Word × Byte × Byte × Byte :=
  ((after s).pc, (after s).reg 1, (after s).reg 2, (after s).reg 15)

/-- Bytes placed in memory. -/
def bytes (s : State) (a : Nat) (bs : List Byte) : State := s.setMem (Memory.writeBytes s.mem a bs)

/-- SP set, with every entry at 0x3F2. -/
def stacked (s : State) (sp : Fin 17) : State := { s with sp := sp, stack := Vector.replicate 16 0x3F2 }

/-! ## Decoding: one word of every constructor, written out from R76 -/

/-- DC2, DC3, DC8, DC9. -/
theorem test_decode_control :
    decodeWord 0x00E0 = .ok .cls ∧ decodeWord 0x00EE = .ok .ret ∧ decodeWord 0x1ABC = .ok (.jp 0xABC) ∧
    decodeWord 0x2ABC = .ok (.call 0xABC) ∧ decodeWord 0xBFFF = .ok (.jpV0 0xFFF) := by decide

/-- DC10 to DC12, DC18. -/
theorem test_decode_skips :
    decodeWord 0x3AFE = .ok (.seByte 10 0xFE) ∧ decodeWord 0x4F00 = .ok (.sneByte 15 0x00) ∧
    decodeWord 0x5AB0 = .ok (.seReg 10 11) ∧ decodeWord 0x9AB0 = .ok (.sneReg 10 11) := by decide

/-- DC14 to DC16. -/
theorem test_decode_alu :
    decodeWord 0x6C7D = .ok (.ldByte 12 0x7D) ∧ decodeWord 0x7001 = .ok (.addByte 0 0x01) ∧
    decodeWord 0x8AB0 = .ok (.ldReg 10 11) ∧ decodeWord 0x8AB1 = .ok (.orReg 10 11) ∧
    decodeWord 0x8AB2 = .ok (.andReg 10 11) ∧ decodeWord 0x8AB3 = .ok (.xorReg 10 11) ∧
    decodeWord 0x8AB4 = .ok (.addReg 10 11) ∧ decodeWord 0x8AB5 = .ok (.subReg 10 11) ∧
    decodeWord 0x8AB6 = .ok (.shr 10 11) ∧ decodeWord 0x8AB7 = .ok (.subnReg 10 11) ∧
    decodeWord 0x8ABE = .ok (.shl 10 11) ∧ decodeWord 0xC3F0 = .ok (.rnd 3 0xF0) := by decide

/-- DC20, DC23 to DC25. -/
theorem test_decode_index_display_keys :
    decodeWord 0xA000 = .ok (.ldI 0) ∧ decodeWord 0xD7A5 = .ok (.drw 7 10 5) ∧
    decodeWord 0xE59E = .ok (.skp 5) ∧ decodeWord 0xE5A1 = .ok (.sknp 5) := by decide

/-- DC27, DC28. -/
theorem test_decode_family_F :
    decodeWord 0xF507 = .ok (.ldVxDt 5) ∧ decodeWord 0xF50A = .ok (.ldVxK 5) ∧
    decodeWord 0xF515 = .ok (.ldDtVx 5) ∧ decodeWord 0xF518 = .ok (.ldStVx 5) ∧
    decodeWord 0xF51E = .ok (.addI 5) ∧ decodeWord 0xF529 = .ok (.ldF 5) ∧
    decodeWord 0xF533 = .ok (.ldB 5) ∧ decodeWord 0xF555 = .ok (.ldMemVx 5) ∧
    decodeWord 0xF565 = .ok (.ldVxMem 5) := by decide

/-- The byte order of R53: 12 34 is a jump to 0x234, and a lone byte is no instruction. -/
theorem test_decode_bytes :
    decode [0x12, 0x34, 0x56] = .ok (.jp 0x234, [0x56]) ∧ decode [0x12] = .error .truncated := by decide

/-- The encoder writes the words of R76, an ignored field included. -/
theorem test_encode :
    encode (.shr 10 11) = 0x8AB6 ∧ encode (.drw 7 10 5) = 0xD7A5 ∧ encode (.ldMemVx 2) = 0xF255 ∧
    encodeBytes (.jp 0x234) = [0x12, 0x34] := by decide

/-- A row of the table, its bits numbered as the table numbers them. -/
theorem test_decode_table_word :
    decodeTableWord 16 0xD7A5 = some (.drw 7 10 5) ∧ decodeTableWord 16 0x5AB1 = none := by decide

/-! ## Well-formedness: words the check refuses, by family (DC1, DC4, DC6, DC13, DC17, DC19, DC26, DC29) -/

theorem test_illegal_family_0 :
    legalWord 0x0000 = false ∧ legalWord 0x00E1 = false ∧ legalWord 0x01E0 = false ∧
    decodeWord 0x01E0 = .error (.unsupportedOpcode 0x01E0) ∧ legalWord 0x00E0 = true := by decide
theorem test_illegal_family_5 :
    legalWord 0x5ABF = false ∧ decodeWord 0x5ABF = .error (.unsupportedOpcode 0x5ABF) ∧ legalWord 0x5AB0 = true := by
  decide
theorem test_illegal_family_8 :
    legalWord 0x8AB8 = false ∧ legalWord 0x8ABD = false ∧ legalWord 0x8ABF = false ∧
    decodeWord 0x8AB8 = .error (.unsupportedOpcode 0x8AB8) ∧ legalWord 0x8ABE = true := by decide
theorem test_illegal_family_9 :
    legalWord 0x9AB8 = false ∧ decodeWord 0x9AB8 = .error (.unsupportedOpcode 0x9AB8) ∧ legalWord 0x9AB0 = true := by
  decide
theorem test_illegal_family_E :
    legalWord 0xE59F = false ∧ legalWord 0xE5A0 = false ∧
    decodeWord 0xE59F = .error (.unsupportedOpcode 0xE59F) ∧ legalWord 0xE5A1 = true := by decide
theorem test_illegal_family_F :
    legalWord 0xF500 = false ∧ legalWord 0xF575 = false ∧ legalWord 0xF556 = false ∧
    decodeWord 0xF556 = .error (.unsupportedOpcode 0xF556) ∧ legalWord 0xF555 = true := by decide

/-! ## Control transfer -/

/-- CF7, CF8. -/
theorem test_ret :
    (after (stacked (word 0x00EE) 1)).pc = 0x3F2 ∧ (after (stacked (word 0x00EE) 1)).sp = 0 ∧
    (after (stacked (word 0x00EE) 1)).stack[0] = 0x3F2 ∧
    faultOf (word 0x00EE) = some (.stackUnderflow 0x200) := by decide

/-- CF1, CF3, F1. -/
theorem test_jp :
    (after (word 0x1ABC)).pc = 0xABC ∧ (after (word 0x1FFF)).pc = 0xFFF ∧
    faultOf (after (word 0x1FFF)) = some (.outOfBounds .code 0xFFF) := by decide

/-- CF4, CF5, CF6. -/
theorem test_call :
    (after (word 0x2300)).pc = 0x300 ∧ (after (word 0x2300)).sp = 1 ∧ (after (word 0x2300)).stack[0] = 0x202 ∧
    (after (stacked (word 0x2300) 15)).sp = 16 ∧ (after (stacked (word 0x2300) 15)).stack[15] = 0x202 ∧
    faultOf (stacked (word 0x2300) 16) = some (.stackOverflow 0x200) := by decide

/-- CF12: a call from the last word pushes 0x1000. -/
theorem test_call_last_word : (after (wordAt 0xFFE 0x2ABC)).stack[0] = 0x1000 := by decide

/-- CF9, CF10, F2. -/
theorem test_jp_v0 :
    (after ((word 0xB300).setReg 0 0x10)).pc = 0x310 ∧ (after ((word 0xBFFF).setReg 0 0xFF)).pc = 0x10FE ∧
    faultOf (after ((word 0xBFFF).setReg 0 0xFF)) = some (.outOfBounds .code 0x10FE) := by decide

/-! ## Skips -/

/-- SK1, SK2, SK11. -/
theorem test_se_byte :
    (after ((word 0x3342).setReg 3 0x42)).pc = 0x204 ∧ (after ((word 0x3343).setReg 3 0x42)).pc = 0x202 ∧
    (after (wordAt 0xFFE 0x3000)).pc = 0x1002 := by decide

/-- SK3, SK4. -/
theorem test_sne_byte :
    (after ((word 0x4342).setReg 3 0x42)).pc = 0x202 ∧ (after ((word 0x4343).setReg 3 0x42)).pc = 0x204 := by decide

/-- SK5 to SK7, SK13. -/
theorem test_se_reg :
    (after (ops (word 0x5120) 7 7 0)).pc = 0x204 ∧ (after (ops (word 0x5120) 7 8 0)).pc = 0x202 ∧
    (after (ops (word 0x5110) 7 8 0)).pc = 0x204 ∧
    faultOf (ops (word 0x5121) 7 7 0) = some (.unsupportedOpcode 0x5121 0x200) := by decide

/-- SK8 to SK10. -/
theorem test_sne_reg :
    (after (ops (word 0x9120) 7 8 0)).pc = 0x204 ∧ (after (ops (word 0x9120) 7 7 0)).pc = 0x202 ∧
    (after (ops (word 0x9110) 7 8 0)).pc = 0x202 := by decide

/-! ## Arithmetic and logic -/

/-- AL1, AL3. -/
theorem test_ld_byte :
    (after (word 0x6AFF)).reg 10 = 0xFF ∧ (after (word 0x6AFF)).pc = 0x202 ∧ (after (word 0x6F12)).reg 15 = 0x12 := by
  decide

/-- AL4, AL6, AL7. -/
theorem test_add_byte :
    results (ops (word 0x7105) 0x10 0 0x07) = (0x202, 0x15, 0, 0x07) ∧
    results (ops (word 0x7101) 0xFF 0 0x07) = (0x202, 0x00, 0, 0x07) ∧
    (after ((word 0x7F01).setReg 15 0xFF)).reg 15 = 0 := by decide

/-- AL8. -/
theorem test_ld_reg : results (ops (word 0x8120) 0x11 0x22 0x07) = (0x202, 0x22, 0x22, 0x07) := by decide

/-- AL9. -/
theorem test_or_reg : results (ops (word 0x8121) 0xF0 0x3C 0x07) = (0x202, 0xFC, 0x3C, 0x07) := by decide

/-- AL10. -/
theorem test_and_reg : results (ops (word 0x8122) 0xF0 0x3C 0x07) = (0x202, 0x30, 0x3C, 0x07) := by decide

/-- AL11, AL12. -/
theorem test_xor_reg :
    results (ops (word 0x8123) 0xF0 0x3C 0x07) = (0x202, 0xCC, 0x3C, 0x07) ∧
    (after ((word 0x8113).setReg 1 0xA5)).reg 1 = 0 := by decide

/-- AD1 to AD5. -/
theorem test_add_reg :
    results (ops (word 0x8124) 0x10 0x20 0x07) = (0x202, 0x30, 0x20, 0x00) ∧
    results (ops (word 0x8124) 0xFF 0x01 0x07) = (0x202, 0x00, 0x01, 0x01) ∧
    results (ops (word 0x8124) 0x80 0x7F 0x07) = (0x202, 0xFF, 0x7F, 0x00) ∧
    results (ops (word 0x8124) 0x80 0x80 0x07) = (0x202, 0x00, 0x80, 0x01) := by decide

/-- AX1, AX4, AX5, AX7 to AX10. -/
theorem test_add_reg_vf :
    results (ops (word 0x8114) 0x90 0 0x07) = (0x202, 0x20, 0, 0x01) ∧
    results (ops (word 0x81F4) 0x01 0 0x05) = (0x202, 0x01, 0, 0x00) ∧
    results (ops (word 0x81F4) 0xFF 0 0x01) = (0x202, 0x00, 0, 0x01) ∧
    results (ops (word 0x8F14) 0x20 0 0xF0) = (0x202, 0x20, 0, 0x21) ∧
    results (ops (word 0x8F14) 0x20 0 0x10) = (0x202, 0x20, 0, 0x20) ∧
    results (ops (word 0x8FF4) 0 0 0x90) = (0x202, 0, 0, 0x02) ∧
    results (ops (word 0x8FF4) 0 0 0x10) = (0x202, 0, 0, 0x00) := by decide

/-- SB1 to SB3. -/
theorem test_sub_reg :
    results (ops (word 0x8125) 0x30 0x10 0x07) = (0x202, 0x20, 0x10, 0x01) ∧
    results (ops (word 0x8125) 0x10 0x30 0x07) = (0x202, 0xE0, 0x30, 0x00) ∧
    results (ops (word 0x8125) 0x42 0x42 0x07) = (0x202, 0x00, 0x42, 0x00) := by decide

/-- AX2, AX11 to AX15. -/
theorem test_sub_reg_vf :
    results (ops (word 0x8115) 0x90 0 0x07) = (0x202, 0x00, 0, 0x00) ∧
    results (ops (word 0x81F5) 0x05 0 0x03) = (0x202, 0x04, 0, 0x01) ∧
    results (ops (word 0x81F5) 0x03 0 0x05) = (0x202, 0x03, 0, 0x00) ∧
    results (ops (word 0x8F15) 0x03 0 0x05) = (0x202, 0x03, 0, 0xFE) ∧
    results (ops (word 0x8F15) 0x05 0 0x03) = (0x202, 0x05, 0, 0xFB) ∧
    results (ops (word 0x8FF5) 0 0 0x77) = (0x202, 0, 0, 0x00) := by decide

/-- SR1 to SR4, AX16. -/
theorem test_shr :
    results (ops (word 0x8126) 0x03 0xEE 0x07) = (0x202, 0x01, 0xEE, 0x01) ∧
    results (ops (word 0x8126) 0x04 0xEE 0x07) = (0x202, 0x02, 0xEE, 0x00) ∧
    results (ops (word 0x8126) 0xFF 0xEE 0x07) = (0x202, 0x7F, 0xEE, 0x01) ∧
    (after ((word 0x8F16).setReg 15 0x03)).reg 15 = 0 := by decide

/-- SN1 to SN3. -/
theorem test_subn_reg :
    results (ops (word 0x8127) 0x10 0x30 0x07) = (0x202, 0x20, 0x30, 0x01) ∧
    results (ops (word 0x8127) 0x30 0x10 0x07) = (0x202, 0xE0, 0x10, 0x00) ∧
    results (ops (word 0x8127) 0x42 0x42 0x07) = (0x202, 0x00, 0x42, 0x00) := by decide

/-- AX3, AX18 to AX22. -/
theorem test_subn_reg_vf :
    results (ops (word 0x8117) 0x90 0 0x07) = (0x202, 0x00, 0, 0x00) ∧
    results (ops (word 0x81F7) 0x03 0 0x05) = (0x202, 0xFE, 0, 0x01) ∧
    results (ops (word 0x81F7) 0x05 0 0x03) = (0x202, 0xFB, 0, 0x00) ∧
    results (ops (word 0x8F17) 0x05 0 0x03) = (0x202, 0x05, 0, 0x04) ∧
    results (ops (word 0x8F17) 0x03 0 0x05) = (0x202, 0x03, 0, 0x03) ∧
    results (ops (word 0x8FF7) 0 0 0x77) = (0x202, 0, 0, 0x00) := by decide

/-- SL1 to SL3, AX23, AX24. -/
theorem test_shl :
    results (ops (word 0x812E) 0x81 0xEE 0x07) = (0x202, 0x02, 0xEE, 0x01) ∧
    results (ops (word 0x812E) 0x40 0xEE 0x07) = (0x202, 0x80, 0xEE, 0x00) ∧
    results (ops (word 0x812E) 0xFF 0xEE 0x07) = (0x202, 0xFE, 0xEE, 0x01) ∧
    (after ((word 0x8F1E).setReg 15 0x81)).reg 15 = 2 ∧ (after ((word 0x8F1E).setReg 15 0x41)).reg 15 = 0 := by decide

/-- RN2: with `kk = 0` the result is 0, whatever byte is drawn. -/
theorem test_rnd_zero_mask :
    (after ((word 0xC100).setReg 1 0x55)).reg 1 = 0 ∧ (after (word 0xC100)).pc = 0x202 := by
  refine ⟨?_, by decide⟩
  change Config.rnd 0 &&& 0 = 0
  exact BitVec.and_zero

/-- RN3: with `kk = 0xFF` the result is the byte drawn. -/
theorem test_rnd_full_mask : (after (word 0xC1FF)).reg 1 = Config.rnd 0 := by
  change Config.rnd 0 &&& 0xFF = Config.rnd 0
  exact BitVec.and_allOnes

/-! ## The index register and memory -/

/-- IM1, IM2. -/
theorem test_ld_i : (after (word 0xA123)).i = 0x123 ∧ (after (word 0xAFFF)).i = 0xFFF := by decide

/-- IM3 to IM5. -/
theorem test_add_i :
    (after ((ops (word 0xF11E) 0x01 0 0x07).setI 0xFFF)).i = 0 ∧
    (after ((ops (word 0xF11E) 0x01 0 0x07).setI 0xFFF)).reg 15 = 0x07 ∧
    (after (((word 0xF01E).setReg 0 0xFF).setI 0x100)).i = 0x1FF ∧
    (after (((word 0xF01E).setReg 0 0xFF).setI 0xF01)).i = 0 := by decide

/-- IM8: no masking of Vx, for every font origin. -/
theorem test_ld_f : (after ((word 0xF029).setReg 0 0xFF)).i = BitVec.ofNat 16 (Config.fontOrigin.val + 1275) := rfl

/-- IM9, IM10. -/
theorem test_ld_b :
    Memory.readBytes (after (((word 0xF033).setReg 0 0x9C).setI 0x300)).mem 0x300 3 = [1, 5, 6] ∧
    Memory.readBytes (after (((word 0xF033).setReg 0 0xFF).setI 0xFFD)).mem 0xFFD 3 = [2, 5, 5] ∧
    (after (((word 0xF033).setReg 0 0x9C).setI 0x300)).i = 0x300 := by decide

/-- IM11. -/
theorem test_ld_b_fault :
    faultOf (((word 0xF033).setReg 0 0xFF).setI 0xFFE) = some (.outOfBounds .data 0x1000) ∧
    after (((word 0xF033).setReg 0 0xFF).setI 0xFFE) = ((word 0xF033).setReg 0 0xFF).setI 0xFFE := by decide +kernel

/-- IM17, F4. -/
theorem test_ld_mem_vx :
    faultOf ((word 0xF255).setI 0x300) = some (.unsupportedOpcode 0xF255 0x200) ∧
    faultOf (word 0xF055) = some (.unsupportedOpcode 0xF055 0x200) := by decide

/-- IM12: V0 to V2 loaded, V3 and I unchanged. -/
theorem test_ld_vx_mem :
    let t := after (((bytes (word 0xF265) 0x300 [0x11, 0x22, 0x33, 0x44]).setI 0x300).setReg 3 0x99)
    (t.reg 0, t.reg 1, t.reg 2, t.reg 3, t.i) = (0x11, 0x22, 0x33, 0x99, 0x300) := by decide

/-- IM14 to IM16. -/
theorem test_ld_vx_mem_edges :
    (after ((bytes (word 0xFF65) 0xFFF [0xAF]).setI 0xFF0)).reg 15 = 0xAF ∧
    faultOf ((word 0xFF65).setI 0xFF1) = some (.outOfBounds .data 0x1000) ∧
    (after ((bytes (word 0xF065) 0xFFF [0x5A]).setI 0xFFF)).reg 0 = 0x5A := by decide

/-- P8, steps 3 and 4, placed at 0x200: the word rewritten by `Fx33` is the one fetched next. -/
theorem test_self_modifying :
    (after (after (((bytes State.reset 0x200 [0xF0, 0x33, 0x4A, 0x00, 0x00, 0x00]).setReg 0 0xC8).setI 0x203))).pc
      = 0x206 := by decide

/-! ## The display -/

/-- DP1, DP2. -/
theorem test_cls :
    (after ((word 0x00E0).setFb (2 ^ 2047 + 2 ^ 5))).fb = 0 ∧ (after (word 0x00E0)).redraw = true ∧
    (after (word 0x00E0)).pc = 0x202 := by decide +kernel

/-- DP3, DP5, DP6, DP11: set, collide, VF cleared, VF as a coordinate. -/
theorem test_drw :
    (after ((bytes (word 0xD011) 0x300 [0xFF]).setI 0x300)).fb = 0xFF ∧
    (let t := after (((bytes (word 0xD011) 0x300 [0xC0]).setI 0x300).setFb 2); (t.fb, t.reg 15, t.redraw))
      = (1, 1, true) ∧
    (let t := after ((((bytes (word 0xD011) 0x300 [0x80]).setI 0x300).setFb 2).setReg 15 1); (t.fb, t.reg 15))
      = (3, 0) ∧
    (let t := after (((bytes (word 0xDF11) 0x300 [0x80]).setI 0x300).setReg 15 8); (t.fb, t.reg 15))
      = (2 ^ 8, 0) := by decide +kernel

/-- DP8 to DP10, DP14, DP15: the flat wrap, the bound, and no row at all. -/
theorem test_drw_edges :
    (after (((bytes (word 0xD011) 0x300 [0xF0]).setI 0x300).setReg 0 62)).fb = 2 ^ 62 + 2 ^ 63 + 2 ^ 64 + 2 ^ 65 ∧
    (after (((bytes (word 0xD012) 0x300 [0x80, 0x80]).setI 0x300).setReg 1 31)).fb = 1 + 2 ^ 1984 ∧
    (after ((((bytes (word 0xD011) 0x300 [0x80]).setI 0x300).setReg 0 0xFF).setReg 1 0xFF)).fb = 2 ^ 191 ∧
    faultOf ((bytes (word 0xD012) 0xFFF [0x80]).setI 0xFFF) = some (.outOfBounds .data 0x1000) ∧
    (after ((word 0xD010).setI 0xFFF)).redraw = true := by decide +kernel

/-- P9: the glyph "A" of the default font, its cells as the spec lists them. -/
theorem test_glyph :
    drawSprite 5 3 ((Config.defaultFontTable.drop 50).take 5) 0 =
      ([197, 198, 199, 200, 261, 264, 325, 326, 327, 328, 389, 392, 453, 456].foldl
        (fun f c => f + BitVec.twoPow 2048 c) 0, false) := by decide +kernel

/-! ## Keypad and timers -/

/-- KT1, KT2, KT5, KT7. -/
theorem test_skp :
    (after (((word 0xE29E).setReg 2 7).setKey 0x80)).pc = 0x204 ∧ (after ((word 0xE29E).setReg 2 7)).pc = 0x202 ∧
    (after (((word 0xE29E).setReg 2 7).setKey 0x100)).pc = 0x202 ∧
    faultOf ((word 0xE09E).setReg 0 16) = some (.outOfBounds .keypad 16) := by decide

/-- KT3, KT4, KT8. -/
theorem test_sknp :
    (after ((word 0xE2A1).setReg 2 7)).pc = 0x204 ∧ (after (((word 0xE2A1).setReg 2 7).setKey 0x80)).pc = 0x202 ∧
    faultOf ((word 0xE0A1).setReg 0 0xFF) = some (.outOfBounds .keypad 255) := by decide

/-- KT9, KT10, KT12. -/
theorem test_ld_vx_k :
    stepOutcome ((word 0xF20A).setDt 5) = .waiting false ∧ (after ((word 0xF20A).setDt 5)).dt = 4 ∧
    (after ((word 0xF20A).setDt 5)).pc = 0x200 ∧
    (let t := after ((word 0xF20A).setKey 0x80); (t.reg 2, t.pc)) = (7, 0x202) ∧
    (after (((word 0xF00A).setKey 1).setReg 0 0x55)).reg 0 = 0 := by decide

/-- KT11: with keys 3 and 9 down the result is 3 or 9, and either is possible for some selection. -/
theorem test_ld_vx_k_two :
    pressedKeys 0x208 = [3, 9] ∧
    (after ((word 0xF20A).setKey 0x208)).reg 2
      = BitVec.ofNat 8 ([3, 9].getD (Config.keyChoice 0 0x208 % 2) 3) := ⟨by decide, rfl⟩

/-- KT13. -/
theorem test_ld_vx_dt : (let t := after ((word 0xF107).setDt 2); (t.reg 1, t.dt, t.pc)) = (2, 1, 0x202) := by decide

/-- KT15 to KT18. -/
theorem test_ld_dt_vx :
    (after ((word 0xF015).setReg 0 3)).dt = 2 ∧ (after ((word 0xF015).setReg 0 1)).dt = 0 ∧
    (after ((word 0xF015).setDt 9)).dt = 0 ∧ (after ((word 0xF015).setReg 0 0xFF)).dt = 0xFE := by decide

/-- KT19. -/
theorem test_ld_st_vx : (after ((word 0xF018).setReg 0 0x10)).st = 0x0F := by decide

/-- KT20, KT22, F13: every step that completes ticks both timers, and one that faults neither. -/
theorem test_tick :
    (let t := after (((word 0x6000).setDt 5).setSt 1); (t.dt, t.st)) = (4, 0) ∧
    (let t := after (((word 0x1200).setDt 0xFF).setSt 0xFF); (t.dt, t.st)) = (0xFE, 0xFE) ∧
    (let t := after (((word 0x00EE).setDt 5).setSt 5); (t.dt, t.st)) = (5, 5) := by decide

/-! ## The step and the host's operations -/

/-- F3, F14, F15: reset without a program, the last fetch address, and past it. -/
theorem test_fetch :
    faultOf State.reset = some (.unsupportedOpcode 0x0000 0x200) ∧ (after (wordAt 0xFFE 0x1200)).pc = 0x200 ∧
    faultOf ((bytes State.reset 0xFFF [0x12]).setPc 0xFFF) = some (.outOfBounds .code 0xFFF) := by decide

/-- P10: a word at an odd address. -/
theorem test_odd_pc : (after (wordAt 0x203 0x6A55)).reg 10 = 0x55 ∧ (after (wordAt 0x203 0x6A55)).pc = 0x205 := by
  decide

/-- F16 to F18, F20. -/
theorem test_illegal_steps :
    faultOf (word 0x8128) = some (.unsupportedOpcode 0x8128 0x200) ∧
    faultOf (word 0xE19F) = some (.unsupportedOpcode 0xE19F 0x200) ∧
    faultOf (word 0xF075) = some (.unsupportedOpcode 0xF075 0x200) ∧
    faultOf (word 0xFFFF) = some (.unsupportedOpcode 0xFFFF 0x200) := by decide

/-- HO2, HO6. -/
theorem test_load_program :
    operate (.loadProgram [0x12, 0x00]) State.reset = word 0x1200 ∧
    Memory.readBytes (operate (.loadProgram [0xAB]) (word 0x1234)).mem 0x200 2 = [0xAB, 0x34] := by decide +kernel

/-- HO7. -/
theorem test_set_keys :
    (operate (.setKeys 0x0081) (State.reset.setKey 8)).key = 0x81 ∧ latchWord [true, false, false, true] = 9 := by
  decide

/-- HO8, and the sticky REDRAW of section 11. -/
theorem test_redraw :
    (operate .clearRedrawFlag ((State.reset.setRedraw true).setFb 512)) = State.reset.setFb 512 ∧
    stepOutcome (after (bytes State.reset 0x200 [0x00, 0xE0, 0x60, 0x00])) = .retired true := by decide +kernel

/-- HO10: after a fault, `initialize()` gives the reset state. -/
theorem test_initialize_after_fault :
    operate .initializeMachine (after ((word 0x00EE).setDt 5)) = State.reset := by decide +kernel

/-- `withFetchWord` places the word where a step fetches, also from a PC past memory. -/
theorem test_with_fetch_word :
    (after ((State.reset.setPc 0x10FE).withFetchWord 16 0x6AFF)).reg 10 = 0xFF := by decide

/-! ## Witnesses: states and operands that meet the hypotheses of each statement that has some, clause by clause -/

/-- The next state of an outcome; the state given where there is none. -/
def nextOr (d : State) : Result → State
  | .next t => t
  | _       => d

/-- Whether an outcome is a next state. -/
def isNext : Result → Bool
  | .next _ => true
  | _       => false

/-- An outcome that is a next state, as the hypotheses of the statements say it. -/
theorem eq_next_of_isNext {r : Result} (d : State) (h : isNext r = true) : r = .next (nextOr d r) := by
  cases r with
  | next t => rfl
  | fault f => cases h
  | refused q => cases h

theorem witness_DecodeOfEncode : (Instr.drw 15 0 15).wellFormed = true := rfl

theorem witness_EncodeOfDecode : decodeWord 0x8AB6 = .ok (.shr 10 11) := by decide

/-- A word of the last row and that row; a word of the first row and that row; and a word of no row. -/
theorem witness_DecoderFollowsTable :
    decodeWord 0xFF65 = .ok (.ldVxMem 15) ∧
    opcodeRows[0]? = some ⟨0x00E0, 0xFFFF⟩ ∧ (0x00E0 : Word) &&& 0xFFFF = 0x00E0 ∧ (∀ r ∈ opcodeRows, (0xFF66 : Word) &&& r.mask ≠ r.pattern) ∧
    opcodeRows[33]? = some ⟨0xF065, 0xF0FF⟩ ∧ (0xFF65 : Word) &&& 0xF0FF = 0xF065 := by decide

/-- One illegal word of each clause, at the edge of its range, and a state that fetches one at the last address. -/
theorem witness_IllegalWordsFault :
    List.all [0x00DF, 0x00EF, 0x0FFF, 0x5AB1, 0x8AB8, 0x8ABF, 0x9ABF, 0xE59D, 0xE5A2, 0xF506, 0xF566]
      (fun w => decide (decodeWord w = .error (.unsupportedOpcode w))) = true ∧
    (wordAt 0xFFE 0x5AB1).pc.toNat ≤ 4094 ∧ wordNumberAt (wordAt 0xFFE 0x5AB1) = (0x5AB1 : Word).toNat := by decide +kernel

/-- SP 0, and both ends of the range of the other clause. -/
theorem witness_ReturnPops :
    (stacked State.reset 0).sp.val = 0 ∧ (stacked State.reset 1).sp.val = (0 : Fin 16).val + 1 ∧
    (stacked State.reset 16).sp.val = (15 : Fin 16).val + 1 := by decide

theorem witness_JumpSetsPc :
    (0x1FFF : Word).extractLsb' 12 4 = (0x1 : Nibble) ∧ (0xFFF : Addr) = 0xFFF := by decide

/-- SP 16, both ends of the range below it, and PC at the last fetch address. -/
theorem witness_CallPushesReturnAddress :
    (0x2FFF : Word).extractLsb' 12 4 = (0x2 : Nibble) ∧ (stacked State.reset 16).sp.val = 16 ∧
    (stacked State.reset 0).sp.val = (0 : Fin 16).val ∧ (stacked State.reset 15).sp.val = (15 : Fin 16).val ∧
    (wordAt 0xFFE 0x2ABC).pc.toNat ≤ 4094 := by decide

/-- Sums on either side of the last fetch address. -/
theorem witness_OffsetJumpAddsV0 :
    (0xBFFF : Word).extractLsb' 12 4 = (0xB : Nibble) ∧
    (0xFFE : Addr).toNat + ((State.reset.setReg 0 1).reg 0).toNat > 4094 ∧
    ¬ ((0xFFE : Addr).toNat + (State.reset.reg 0).toNat > 4094) := by decide

/-- A call into the last free entry completes. -/
theorem witness_CallThenReturnResumes :
    ∃ t, exec (.call 0x300) (stacked State.reset 15) = .next t := ⟨_, rfl⟩

theorem witness_NestedCallsBounded :
    State.reset.sp.val = 0 ∧ (List.replicate 16 (0x200 : Addr)).length ≤ 16 ∧
    (List.replicate 17 (0x200 : Addr)).length > 16 := by decide

theorem witness_SkipOnByte :
    (0x3342 : Word).extractLsb' 12 4 = (0x3 : Nibble) ∧ (0x4342 : Word).extractLsb' 12 4 = (0x4 : Nibble) := by decide

theorem witness_SkipOnRegisters :
    (0x5120 : Word).extractLsb' 12 4 = (0x5 : Nibble) ∧ (0x5120 : Word).extractLsb' 0 4 = (0 : Nibble) ∧
    (0x5121 : Word).extractLsb' 12 4 = (0x5 : Nibble) ∧ (0x5121 : Word).extractLsb' 0 4 ≠ (0 : Nibble) ∧
    (0x9120 : Word).extractLsb' 12 4 = (0x9 : Nibble) ∧ (0x9120 : Word).extractLsb' 0 4 = (0 : Nibble) ∧
    (0x9121 : Word).extractLsb' 12 4 = (0x9 : Nibble) ∧ (0x9121 : Word).extractLsb' 0 4 ≠ (0 : Nibble) := by decide

theorem witness_LoadByteAndAddByte :
    (0x6F12 : Word).extractLsb' 12 4 = (0x6 : Nibble) ∧ (0x7F01 : Word).extractLsb' 12 4 = (0x7 : Nibble) := by decide

theorem witness_CopyAndLogic :
    (0x8120 : Word).extractLsb' 12 4 = (0x8 : Nibble) ∧ (0x8120 : Word).extractLsb' 0 4 = (0 : Nibble) ∧
    (0x8121 : Word).extractLsb' 0 4 = (1 : Nibble) ∧ (0x8122 : Word).extractLsb' 0 4 = (2 : Nibble) ∧
    (0x8123 : Word).extractLsb' 0 4 = (3 : Nibble) := by decide

/-- Each of the four cases of `x` and `y`, with and without a carry. -/
theorem witness_AddSetsCarry :
    (0x8FF4 : Word).extractLsb' 12 4 = (0x8 : Nibble) ∧ (0x8FF4 : Word).extractLsb' 0 4 = (4 : Nibble) ∧
    (1 : Reg) ≠ 15 ∧ (15 : Reg) = 15 ∧ (let s := ops State.reset 0xFF 0x01 0; 255 = (s.reg 1).toNat ∧
      1 = (s.reg 2).toNat ∧ 1 = (if 255 + 1 > 255 then 1 else 0)) ∧
    (let s := ops State.reset 0xFF 0x01 0; 255 = (s.reg 1).toNat ∧ 0 = (s.reg 15).toNat ∧
      0 = (if 255 + 0 > 255 then 1 else 0)) := by decide

/-- Strictly greater, and equal. -/
theorem witness_SubtractSetsStrictFlag :
    (0x8FF5 : Word).extractLsb' 12 4 = (0x8 : Nibble) ∧ (0x8FF5 : Word).extractLsb' 0 4 = (5 : Nibble) ∧
    (let s := ops State.reset 0x43 0x42 0; 0x43 = (s.reg 1).toNat ∧ 0x42 = (s.reg 2).toNat ∧
      1 = (if 0x43 > 0x42 then 1 else 0)) ∧
    (let s := ops State.reset 0x42 0x42 0; 0x42 = (s.reg 1).toNat ∧ 0x42 = (s.reg 2).toNat ∧
      0 = (if 0x42 > 0x42 then 1 else 0)) := by decide

theorem witness_ShiftRightByOne :
    (0x8126 : Word).extractLsb' 12 4 = (0x8 : Nibble) ∧ (0x8126 : Word).extractLsb' 0 4 = (6 : Nibble) ∧
    (1 : Reg) ≠ 15 ∧ (15 : Reg) = 15 := by decide

/-- Strictly greater, and equal. -/
theorem witness_SubtractReversed :
    (0x8FF7 : Word).extractLsb' 12 4 = (0x8 : Nibble) ∧ (0x8FF7 : Word).extractLsb' 0 4 = (7 : Nibble) ∧
    (let s := ops State.reset 0x42 0x43 0; 0x42 = (s.reg 1).toNat ∧ 0x43 = (s.reg 2).toNat ∧
      1 = (if 0x43 > 0x42 then 1 else 0)) ∧
    (let s := ops State.reset 0x42 0x42 0; 0x42 = (s.reg 1).toNat ∧ 0x42 = (s.reg 2).toNat ∧
      0 = (if 0x42 > 0x42 then 1 else 0)) := by decide

theorem witness_ShiftLeftByOne :
    (0x812E : Word).extractLsb' 12 4 = (0x8 : Nibble) ∧ (0x812E : Word).extractLsb' 0 4 = (0xE : Nibble) ∧
    (1 : Reg) ≠ 15 ∧ (15 : Reg) = 15 := by decide

theorem witness_RandomUnderMask : (0xC100 : Word).extractLsb' 12 4 = (0xC : Nibble) ∧ (0 : Byte) = 0 := by decide

theorem witness_LoadAndAddIndex :
    (0xAFFF : Word).extractLsb' 12 4 = (0xA : Nibble) ∧ (0xF01E : Word).extractLsb' 12 4 = (0xF : Nibble) ∧
    (0xF01E : Word).extractLsb' 0 8 = (0x1E : Byte) := by decide

theorem witness_FontCharacterAddress :
    (0xF029 : Word).extractLsb' 12 4 = (0xF : Nibble) ∧ (0xF029 : Word).extractLsb' 0 8 = (0x29 : Byte) := by decide

/-- I on either side of the bound (IM10, IM11). -/
theorem witness_StoreDecimalDigits :
    (0xF033 : Word).extractLsb' 12 4 = (0xF : Nibble) ∧ (0xF033 : Word).extractLsb' 0 8 = (0x33 : Byte) ∧
    (State.reset.setI 0xFFD).i.toNat + 2 ≤ 4095 ∧ (State.reset.setI 0xFFE).i.toNat + 2 > 4095 := by decide

theorem witness_StoreRegistersFaults :
    (0xF255 : Word).extractLsb' 12 4 = (0xF : Nibble) ∧ (0xF255 : Word).extractLsb' 0 8 = (0x55 : Byte) ∧
    (wordAt 0xFFE 0xF255).pc.toNat ≤ 4094 ∧ wordNumberAt (wordAt 0xFFE 0xF255) = (0xF255 : Word).toNat := by decide

/-- I on either side of the bound (IM14, IM15). -/
theorem witness_LoadRegistersFromMemory :
    (0xFF65 : Word).extractLsb' 12 4 = (0xF : Nibble) ∧ (0xFF65 : Word).extractLsb' 0 8 = (0x65 : Byte) ∧
    (State.reset.setI 0xFF0).i.toNat + (15 : Reg).toNat ≤ 4095 ∧
    (State.reset.setI 0xFF1).i.toNat + (15 : Reg).toNat > 4095 ∧ (15 : Reg).toNat ≤ (15 : Reg).toNat := by decide

/-- The six places of the stored bytes about the next PC, 0x202: I at 0x202, 0x201, 0x200 and at 0x203, 0x202, 0x201. -/
theorem witness_StoreSeenByNextFetch :
    ∀ a ∈ [0x200, 0x201, 0x202, 0x203],
      let s := (word 0xF033).setI (BitVec.ofNat 16 a)
      fetchInstr s = .ok (.ldB 0) ∧ isNext (step s) = true ∧ (after s).pc.toNat = 0x202 ∧ s.i.toNat = a ∧
        (after s).pc.toNat ≤ 4094 := by decide

/-- `n = 0`, the bound met by `n = 1` and passed by `n = 2` (DP13 to DP15); a cell hit that is 1, and none. -/
theorem witness_DrawSprite :
    (0xD01F : Word).extractLsb' 12 4 = (0xD : Nibble) ∧ (0 : Nibble) = 0 ∧
    (State.reset.setI 0xFFF).i.toNat + (1 : Nibble).toNat - 1 ≤ 4095 ∧
    (2 : Nibble) ≠ 0 ∧ (State.reset.setI 0xFFF).i.toNat + (2 : Nibble).toNat - 1 > 4095 := by decide

theorem witness_DrawSprite_hit :
    let s := ((bytes State.reset 0x300 [0xC0]).setI 0x300).setFb 2
    SpriteCell s 0 1 1 1 ∧ s.fb.getLsbD 1 = true := by
  refine ⟨⟨0, 1, ?_⟩, ?_⟩ <;> decide +kernel

theorem witness_DrawSprite_miss :
    ¬ ∃ c, SpriteCell State.reset 0 1 0 c ∧ State.reset.fb.getLsbD c = true := by
  rintro ⟨c, ⟨row, col, h, -⟩, -⟩
  exact absurd h (Nat.not_lt_zero row)

/-- Two draws of one sprite that runs over the end of the buffer (P3), its registers kept. -/
theorem witness_DrawTwiceRestores :
    let s := (((bytes State.reset 0x300 [0xFF, 0x81]).setI 0x300).setReg 0 60).setReg 1 31
    let t := nextOr s (exec (.drw 0 1 2) s)
    exec (.drw 0 1 2) s = .next t ∧ (∃ u, exec (.drw 0 1 2) t = .next u) ∧ t.reg 0 = s.reg 0 ∧ t.reg 1 = s.reg 1 :=
  ⟨eq_next_of_isNext _ (by decide +kernel), ⟨_, eq_next_of_isNext State.reset (by decide +kernel)⟩,
    by decide +kernel, by decide +kernel⟩

/-- Vx at 15 and at 16 (KT6, KT7). -/
theorem witness_SkipOnKey :
    (0xE09E : Word).extractLsb' 12 4 = (0xE : Nibble) ∧ (0xE09E : Word).extractLsb' 0 8 = (0x9E : Byte) ∧
    (0xE0A1 : Word).extractLsb' 12 4 = (0xE : Nibble) ∧ (0xE0A1 : Word).extractLsb' 0 8 = (0xA1 : Byte) ∧
    ((State.reset.setReg 0 16).reg 0).toNat > 15 ∧
    ((State.reset.setReg 0 15).reg 0).toNat = (15 : Fin 16).val := by decide

/-- No key, and the keys at either end. -/
theorem witness_WaitForKey :
    (0xF00A : Word).extractLsb' 12 4 = (0xF : Nibble) ∧ (0xF00A : Word).extractLsb' 0 8 = (0x0A : Byte) ∧
    (∀ k : Fin 16, State.reset.key.getLsbD k.val = false) ∧
    (State.reset.setKey 0x8001).key.getLsbD (15 : Fin 16).val = true ∧
    (State.reset.setKey 0x8001).key.getLsbD (0 : Fin 16).val = true := by decide

theorem witness_WaitingStep : fetchInstr (word 0xF20A) = .ok (.ldVxK 2) ∧ (word 0xF20A).key = 0 := by decide

theorem witness_TimerMoves :
    (0xF007 : Word).extractLsb' 12 4 = (0xF : Nibble) ∧ (0xF007 : Word).extractLsb' 0 8 = (0x07 : Byte) ∧
    (0xF015 : Word).extractLsb' 0 8 = (0x15 : Byte) ∧ (0xF018 : Word).extractLsb' 0 8 = (0x18 : Byte) ∧
    fetchInstr (word 0xF107) = .ok (.ldVxDt 1) ∧ fetchInstr (word 0xF115) = .ok (.ldDtVx 1) ∧
    fetchInstr (word 0xF118) = .ok (.ldStVx 1) := by decide

/-- The two loads of a timer, an instruction that is neither, and a step that faults. -/
theorem witness_TimersTickEachStep :
    (fetchInstr (word 0xF015) = .ok (.ldDtVx 0) ∧ isNext (step (word 0xF015)) = true) ∧
    (fetchInstr (word 0xF018) = .ok (.ldStVx 0) ∧ isNext (step (word 0xF018)) = true) ∧
    (fetchInstr (word 0x6000) = .ok (.ldByte 0 0) ∧ isNext (step (word 0x6000)) = true) ∧
    faultOf (word 0x00EE) = some (.stackUnderflow 0x200) := by decide

theorem witness_TimersTickEachStep_others : (∀ x, Instr.ldByte 0 0 ≠ .ldDtVx x) ∧ ∀ x, Instr.ldByte 0 0 ≠ .ldStVx x := by
  decide

/-- PC past and at the last fetch address; there an illegal word, an instruction that completes and one that faults. -/
theorem witness_StepRunsDecodedInstruction :
    (State.reset.setPc 0xFFF).pc.toNat > 4094 ∧ (wordAt 0xFFE 0x5AB1).pc.toNat ≤ 4094 ∧
    (0x5AB1 : Word).toNat = wordNumberAt (wordAt 0xFFE 0x5AB1) ∧
    decodeWord 0x5AB1 = .error (.unsupportedOpcode 0x5AB1) ∧
    (let s := wordAt 0xFFE 0x1200
     decode [s.byteAt s.pc.toNat, s.byteAt (s.pc.toNat + 1)] = .ok (.jp 0x200, [])) ∧
    (let s := wordAt 0xFFE 0x00EE
     decode [s.byteAt s.pc.toNat, s.byteAt (s.pc.toNat + 1)] = .ok (.ret, [])) ∧ Instr.ret.wellFormed = true := by
  decide

theorem witness_StepRunsDecodedInstruction_outcomes :
    (∃ u, exec (.jp 0x200) (wordAt 0xFFE 0x1200) = .next u) ∧ ∃ f, exec .ret (wordAt 0xFFE 0x00EE) = .fault f :=
  ⟨⟨_, rfl⟩, ⟨_, rfl⟩⟩

theorem witness_FetchReadsTwoBytes :
    (State.reset.setPc 4095).pc.toNat > 4094 ∧ (State.reset.setPc 4094).pc.toNat ≤ 4094 := by decide

/-- A fault, and a state that differs from it in the keys, the timers, the screen and the stack entries. -/
theorem witness_FaultsRepeat :
    let s := word 0x00EE
    let t := { stacked ((((s.setKey 5).setDt 6).setSt 7).setFb 9) 0 with draws := 4 }
    step s = .fault (.stackUnderflow 0x200) ∧ (∀ a, t.byteAt a = s.byteAt a) ∧ t.pc = s.pc ∧ t.sp = s.sp ∧ t.i = s.i ∧
      ∀ r, t.reg r = s.reg r := ⟨rfl, fun _ => rfl, rfl, rfl, rfl, fun _ => rfl⟩

theorem witness_PcByClass :
    (∃ t, exec (.skp 2) State.reset = .next t) ∧ fetchInstr (word 0xE29E) = .ok (.skp 2) ∧
    (∃ t, step (word 0xE29E) = .next t) ∧ ∃ f, step (word 0x00EE) = .fault f :=
  ⟨⟨_, rfl⟩, rfl, ⟨_, rfl⟩, ⟨_, rfl⟩⟩

/-- A fault; a waiting step; the same instruction with a key down; another instruction; one that draws. -/
theorem witness_StepReport :
    (∃ f, step (word 0x00EE) = .fault f) ∧
    ((∃ t, step (word 0xF20A) = .next t) ∧ (∃ x, fetchInstr (word 0xF20A) = .ok (.ldVxK x)) ∧ (word 0xF20A).key = 0) ∧
    ((∃ t, step ((word 0xF20A).setKey 1) = .next t) ∧ ((word 0xF20A).setKey 1).key ≠ 0) ∧
    ((∃ t, step (word 0x6000) = .next t) ∧ fetchInstr (word 0x6000) = .ok (.ldByte 0 0)) ∧
    ((∃ t, step (word 0x00E0) = .next t) ∧ fetchInstr (word 0x00E0) = .ok .cls) :=
  ⟨⟨_, rfl⟩, ⟨⟨_, rfl⟩, ⟨2, rfl⟩, rfl⟩, ⟨⟨_, rfl⟩, by decide⟩, ⟨⟨_, rfl⟩, rfl⟩, ⟨⟨_, rfl⟩, rfl⟩⟩

/-- A jump to itself at the lowest and at the last address tests can use. -/
theorem witness_SelfJumpChangesOnlyTimers : AtSelfJump (word 0x1200) ∧ AtSelfJump (wordAt 0xFFE 0x1FFE) :=
  ⟨⟨by decide, by decide⟩, ⟨by decide, by decide⟩⟩

/-- A flag-writing instruction and a register it leaves; the register after the last one `Fx65` loads. -/
theorem witness_RegistersWritten :
    ((∃ t, exec (.addReg 1 2) State.reset = .next t) ∧ isDestination (.addReg 1 2) 2 = false ∧
      (writesFlag (.addReg 1 2) = true → (2 : Reg) ≠ 15)) ∧
    ((∃ t, exec (.ldVxMem 2) State.reset = .next t) ∧ isDestination (.ldVxMem 2) 3 = false ∧
      (writesFlag (.ldVxMem 2) = true → (3 : Reg) ≠ 15)) :=
  ⟨⟨⟨_, rfl⟩, rfl, by decide⟩, ⟨⟨_, rfl⟩, rfl, by decide⟩⟩

/-- An instruction that writes none of them, and one that sets REDRAW. -/
theorem witness_MemoryAndScreenWriters :
    ((∃ t, exec (.jp 0x300) State.reset = .next t) ∧ (∀ x, Instr.jp 0x300 ≠ .ldB x) ∧ Instr.jp 0x300 ≠ .cls ∧
      ∀ x y n, Instr.jp 0x300 ≠ .drw x y n) ∧
    ∃ t, exec .cls State.reset = .next t :=
  ⟨⟨⟨_, rfl⟩, fun _ => by simp, by simp, fun _ _ _ => by simp⟩, ⟨_, rfl⟩⟩

theorem witness_StackAndIndexWriters :
    (∃ t, exec (.jp 0x300) State.reset = .next t) ∧ (∀ a, Instr.jp 0x300 ≠ .call a) ∧ Instr.jp 0x300 ≠ .ret ∧
    (∀ a, Instr.jp 0x300 ≠ .ldI a) ∧ (∀ x, Instr.jp 0x300 ≠ .addI x) ∧ ∀ x, Instr.jp 0x300 ≠ .ldF x :=
  ⟨⟨_, rfl⟩, fun _ => by simp, by simp, fun _ => by simp, fun _ => by simp, fun _ => by simp⟩

theorem witness_KeypadAndTimerWriters :
    (∃ t, step (word 0x6000) = .next t) ∧ (∃ t, exec (.ldByte 0 0) State.reset = .next t) ∧
    (∀ x, Instr.ldByte 0 0 ≠ .ldDtVx x) ∧ ∀ x, Instr.ldByte 0 0 ≠ .ldStVx x :=
  ⟨⟨_, rfl⟩, ⟨_, rfl⟩, fun _ => by simp, fun _ => by simp⟩

/-- The cells just past the font's highest place, and the last cell. -/
theorem witness_ResetState :
    (0x200 < 4096 ∧ Config.fontOrigin.val + 80 ≤ 0x200) ∧ (4095 < 4096 ∧ Config.fontOrigin.val + 80 ≤ 4095) := by
  have := Config.fontOrigin.isLt
  omega

/-- The invariant's bounds met exactly: a state with I at 0xFFF, PC at the last fetch address and entries at 0x1000. -/
theorem witness_StepKeepsInvariant :
    let s := { (wordAt 0xFFE 0x00EE).setI 0xFFF with stack := Vector.replicate 16 0x1000, sp := 1 }
    Inv s ∧ ∃ t, step s = .next t := ⟨⟨rfl, by decide, by decide, by decide⟩, ⟨_, rfl⟩⟩

theorem witness_ReachableStatesMeetInvariant :
    Inv State.reset ∧ Reachable (operate .step (operate (.loadProgram [0x12, 0x00]) State.reset)) :=
  ⟨⟨rfl, by decide, by decide, by decide⟩, .operate _ _ (.operate _ _ .reset)⟩

/-- The longest image and one byte more (HO3, HO4). -/
theorem witness_LoadProgramCopies :
    (List.replicate 3584 (0xAA : Byte)).length ≤ 3584 ∧ (List.replicate 3585 (0xAA : Byte)).length > 3584 ∧
    3583 < (List.replicate 3584 (0xAA : Byte)).length := by
  simp only [List.length_replicate]; omega

theorem witness_HostReadsAndClears :
    (∃ t, step ((word 0x6000).setRedraw true) = .next t) ∧ ((word 0x6000).setRedraw true).redraw = true :=
  ⟨⟨_, rfl⟩, rfl⟩

/-- Two states of one record and other counters: an instruction that reads no input, `Cxkk`, `Fx0A` waiting, with one key
and with two keys down, a step that faults, and an operation of the host. -/
theorem witness_CounterOnlyPicksInputs :
    (∀ s : State, s.toRecord = { s with draws := 4 }.toRecord) ∧
    (fetchInstr (word 0x6000) = .ok (.ldByte 0 0) ∧ (∃ t, step (word 0x6000) = .next t) ∧
      (∀ x kk, Instr.ldByte 0 0 ≠ .rnd x kk) ∧ ∀ x, Instr.ldByte 0 0 ≠ .ldVxK x) ∧
    (fetchInstr (word 0xC3FF) = .ok (.rnd 3 0xFF) ∧ ∃ t, step (word 0xC3FF) = .next t) ∧
    (fetchInstr (word 0xF20A) = .ok (.ldVxK 2) ∧ (word 0xF20A).key = 0 ∧ ∃ t, step (word 0xF20A) = .next t) ∧
    ((∃ t, step ((word 0xF20A).setKey 8) = .next t) ∧ ((word 0xF20A).setKey 8).key ≠ 0 ∧
      ∀ k l : Fin 16, (8 : BitVec 16).getLsbD k.val = true → (8 : BitVec 16).getLsbD l.val = true → k = l) ∧
    ((∃ t, step ((word 0xF20A).setKey 9) = .next t) ∧ ((word 0xF20A).setKey 9).key ≠ 0) ∧
    (∃ f, step (word 0x00EE) = .fault f) ∧ Operation.clearRedrawFlag ≠ .step :=
  ⟨fun _ => rfl, ⟨rfl, ⟨_, rfl⟩, fun _ _ => by simp, fun _ => by simp⟩, ⟨rfl, ⟨_, rfl⟩⟩, ⟨rfl, rfl, ⟨_, rfl⟩⟩,
    ⟨⟨_, rfl⟩, by decide, by decide⟩, ⟨⟨_, rfl⟩, by decide⟩, ⟨_, rfl⟩, by decide⟩

theorem witness_SetKeysReplaces :
    (List.replicate 16 true).length = 16 ∧ (List.replicate 15 true).length ≠ 16 ∧
    (List.replicate 17 true).length ≠ 16 := by decide

end Sys2Proof.Tests
end

/-! # The invariant of reachable states (R13, R25, R26, R28)

Each update of the state keeps `Inv` or says what it needs for that; each way of answering carries it to the next state;
then every instruction, every step and every operation of the public surface keeps it. -/

namespace Sys2Proof.Machine

/-! ## Updates of the state -/

theorem inv_reset : Inv State.reset := by
  refine ⟨State.reset_mem_wf, by decide, by decide, fun k => ?_⟩
  simp [State.reset]

section
variable {s : State}

theorem Inv.setReg (h : Inv s) (r : Reg) (b : Byte) : Inv (s.setReg r b) := h
theorem Inv.flagThenResult (h : Inv s) (flag : State → Byte) (x : Reg) (result : State → Byte) :
    Inv (flagThenResult flag x result s) := h
theorem Inv.setDt (h : Inv s) (b : Byte) : Inv (s.setDt b) := h
theorem Inv.setSt (h : Inv s) (b : Byte) : Inv (s.setSt b) := h
theorem Inv.setKey (h : Inv s) (k : BitVec 16) : Inv (s.setKey k) := h
theorem Inv.setFb (h : Inv s) (f : FrameBuffer) : Inv (s.setFb f) := h
theorem Inv.setRedraw (h : Inv s) (b : Bool) : Inv (s.setRedraw b) := h
theorem Inv.countDraw (h : Inv s) : Inv s.countDraw := h
theorem Inv.pop (h : Inv s) : Inv s.pop := h
theorem Inv.tick (h : Inv s) : Inv (tick s) := h

theorem Inv.loadRegs (h : Inv s) (l : List Nat) : Inv (loadRegs s l) := by
  rw [loadRegs_frame]; exact h

theorem loadRegs_pc (s : State) (l : List Nat) : (loadRegs s l).pc = s.pc := by
  rw [loadRegs_frame]

theorem Inv.setPc (h : Inv s) {a : Word} (ha : a.toNat ≤ 0x10FE) : Inv (s.setPc a) := by
  obtain ⟨hmem, hi, -, hstack⟩ := h
  exact ⟨hmem, hi, ha, hstack⟩

theorem Inv.setI (h : Inv s) {a : Word} (ha : a.toNat ≤ 0xFFF) : Inv (s.setI a) := by
  obtain ⟨hmem, -, hpc, hstack⟩ := h
  exact ⟨hmem, ha, hpc, hstack⟩

theorem Inv.setMem (h : Inv s) {m : Memory} (hm : Memory.wf m = true) : Inv (s.setMem m) := by
  obtain ⟨-, hi, hpc, hstack⟩ := h
  exact ⟨hm, hi, hpc, hstack⟩

theorem Inv.push (h : Inv s) {a : Word} (ha : a.toNat ≤ 0x1000) (hsp : s.sp.val < 16) : Inv (s.push a hsp) := by
  obtain ⟨hmem, hi, hpc, hstack⟩ := h
  refine ⟨hmem, hi, hpc, fun k => ?_⟩
  simp only [State.push_stack, Fin.getElem_fin, Vector.getElem_set]
  split
  · exact ha
  · exact hstack k

/-- The entry a return reads is one of the sixteen (R27). -/
theorem Inv.topEntry_le (h : Inv s) : s.topEntry.toNat ≤ 0x1000 := by
  obtain ⟨-, -, -, hstack⟩ := h
  exact hstack ⟨s.sp.val - 1, by omega⟩

/-- Storing bytes at cells of the machine keeps the canonical form, hence the invariant. -/
theorem Inv.setMem_writeBytes (h : Inv s) {a : Nat} {bs : List Byte} (ha : a + bs.length ≤ 4096) :
    Inv (s.setMem (Memory.writeBytes s.mem a bs)) := by
  have ⟨hmem, _⟩ := h
  exact h.setMem (Memory.wf_writeBytes _ _ _ ha hmem)

end

/-! ## Outcomes -/

/-- The state an outcome answers with, if it answers with one, meets the invariant. -/
def NextMeetsInv (r : Result) : Prop := ∀ t, r = .next t → Inv t

section
variable {s : State}

theorem nextMeetsInv_next (h : Inv s) : NextMeetsInv (.next s) := by
  rintro t ⟨⟩; exact h

theorem nextMeetsInv_raise (f : Fault) : NextMeetsInv (raise f) := by
  rintro t ⟨⟩

theorem nextMeetsInv_jumpTo (h : Inv s) {a : Word} (ha : a.toNat ≤ 0x10FE) : NextMeetsInv (jumpTo a s) :=
  nextMeetsInv_next (h.setPc ha)

/-- From a PC a fetch can have, PC + 2 is far below the bound of R25. -/
theorem nextMeetsInv_sequential (h : Inv s) (hpc : s.pc.toNat ≤ 4094) : NextMeetsInv (sequential s) :=
  nextMeetsInv_next (h.setPc (by bv_omega))

theorem nextMeetsInv_skipIf (h : Inv s) (hpc : s.pc.toNat ≤ 4094) (c : Bool) : NextMeetsInv (skipIf c s) := by
  refine nextMeetsInv_next (h.setPc ?_)
  split <;> bv_omega

theorem nextMeetsInv_withDataRange {base count : Nat} {k : Result}
    (hk : ¬ (1 ≤ count ∧ base + count - 1 > 4095) → NextMeetsInv k) : NextMeetsInv (withDataRange base count k) := by
  intro t ht
  obtain ⟨hrange, ht⟩ := withDataRange_next ht
  exact hk hrange t ht

theorem nextMeetsInv_withKey {x : Reg} {k : Bool → Result} (hk : ∀ b, NextMeetsInv (k b)) :
    NextMeetsInv (withKey x s k) := by
  intro t ht
  obtain ⟨-, ht⟩ := withKey_next ht
  exact hk _ t ht

/-! ## The instructions that need an argument of their own -/

theorem nextMeetsInv_execRet (h : Inv s) : NextMeetsInv (execRet s) := by
  unfold execRet
  split
  · exact nextMeetsInv_raise _
  · exact nextMeetsInv_jumpTo h.pop (Nat.le_trans h.topEntry_le (by decide))

/-- The entry a call pushes is at most 0x1000, because the call was fetched (R27, R102). -/
theorem nextMeetsInv_execCall (h : Inv s) (hpc : s.pc.toNat ≤ 4094) (addr : Addr) :
    NextMeetsInv (execCall addr s) := by
  unfold execCall
  split
  · have hentry : (s.pc + 2).toNat ≤ 0x1000 := by bv_omega
    exact nextMeetsInv_jumpTo (h.push hentry _) (by rw [toNat_zextAddr]; omega)
  · exact nextMeetsInv_raise _

theorem nextMeetsInv_execLdB (h : Inv s) (hpc : s.pc.toNat ≤ 4094) (x : Reg) : NextMeetsInv (execLdB x s) :=
  nextMeetsInv_withDataRange fun hrange => by
    have hlength : (decimalDigits (s.reg x)).length = 3 := rfl
    exact nextMeetsInv_sequential (h.setMem_writeBytes (by omega)) hpc

theorem nextMeetsInv_execLdVxMem (h : Inv s) (hpc : s.pc.toNat ≤ 4094) (x : Reg) :
    NextMeetsInv (execLdVxMem x s) :=
  nextMeetsInv_withDataRange fun _ => nextMeetsInv_sequential (h.loadRegs _) (by rwa [loadRegs_pc])

theorem nextMeetsInv_execLdVxK (h : Inv s) (hpc : s.pc.toNat ≤ 4094) (x : Reg) : NextMeetsInv (execLdVxK x s) := by
  unfold execLdVxK
  split
  · exact nextMeetsInv_next h
  · exact nextMeetsInv_sequential (h.setReg x _).countDraw hpc

/-- `Fx29` leaves I at most 0x6AB (R152). -/
theorem fontAddr_le (s : State) (x : Reg) : (fontAddr s x).toNat ≤ 0xFFF := by
  have := fontOrigin_le
  rw [toNat_fontAddr]; omega

theorem indexSum_le (s : State) (x : Reg) : (indexSum s x).toNat ≤ 0xFFF := by
  rw [toNat_indexSum]; omega

end

/-! ## Every instruction, step and operation -/

/-- Every instruction keeps the invariant when PC is one a fetch can have. -/
theorem exec_meetsInv (i : Instr) {s : State} (h : Inv s) (hpc : s.pc.toNat ≤ 4094) : NextMeetsInv (exec i s) := by
  cases i with
  | cls => exact nextMeetsInv_sequential ((h.setFb 0).setRedraw true) hpc
  | ret => exact nextMeetsInv_execRet h
  | jp addr => exact nextMeetsInv_jumpTo h (by rw [toNat_zextAddr]; omega)
  | call addr => exact nextMeetsInv_execCall h hpc addr
  | jpV0 addr => exact nextMeetsInv_jumpTo h (by rw [toNat_offsetTarget]; omega)
  | seByte x kk | sneByte x kk | seReg x y | sneReg x y => exact nextMeetsInv_skipIf h hpc _
  | skp x | sknp x => exact nextMeetsInv_withKey fun _ => nextMeetsInv_skipIf h hpc _
  | ldByte x | addByte x | ldReg x | orReg x | andReg x | xorReg x | ldVxDt x =>
    exact nextMeetsInv_sequential (h.setReg x _) hpc
  | addReg x | subReg x | shr x | subnReg x | shl x =>
    exact nextMeetsInv_sequential (h.flagThenResult _ x _) hpc
  | rnd x kk => exact nextMeetsInv_sequential (h.setReg x _).countDraw hpc
  | drw x y n =>
    exact nextMeetsInv_withDataRange fun _ =>
      nextMeetsInv_sequential (((h.setReg vf _).setFb _).setRedraw true) hpc
  | ldVxK x => exact nextMeetsInv_execLdVxK h hpc x
  | ldDtVx x => exact nextMeetsInv_sequential (h.setDt _) hpc
  | ldStVx x => exact nextMeetsInv_sequential (h.setSt _) hpc
  | ldI addr => exact nextMeetsInv_sequential (h.setI (by rw [toNat_zextAddr]; omega)) hpc
  | addI x => exact nextMeetsInv_sequential (h.setI (indexSum_le s x)) hpc
  | ldF x => exact nextMeetsInv_sequential (h.setI (fontAddr_le s x)) hpc
  | ldB x => exact nextMeetsInv_execLdB h hpc x
  | ldMemVx x => exact nextMeetsInv_raise _
  | ldVxMem x => exact nextMeetsInv_execLdVxMem h hpc x

theorem step_meetsInv {s : State} (h : Inv s) : NextMeetsInv (step s) := by
  intro t ht
  obtain ⟨i, u, hi, hu, rfl⟩ := step_next ht
  obtain ⟨hpc, -⟩ := fetchInstr_ok hi
  exact (exec_meetsInv i h hpc u hu).tick

/-- A program that fits is copied to 0x200 on (R244). -/
theorem operate_loadProgram_of_le {bytes : List Byte} (h : bytes.length ≤ 3584) (s : State) :
    operate (.loadProgram bytes) s = s.setMem (Memory.writeBytes s.mem 0x200 bytes) := by
  simp only [operate, loadProgram, if_neg (Nat.not_lt.2 h)]

/-- A program that does not fit changes nothing (R211, R244). -/
theorem operate_loadProgram_of_gt {bytes : List Byte} (h : bytes.length > 3584) (s : State) :
    operate (.loadProgram bytes) s = s := by
  simp only [operate, loadProgram, if_pos h]

theorem operate_keeps_inv (op : Operation) {s : State} (h : Inv s) : Inv (operate op s) := by
  cases op with
  | initializeMachine => exact inv_reset
  | loadProgram bytes =>
    by_cases hfit : bytes.length ≤ 3584
    · rw [operate_loadProgram_of_le hfit]
      exact h.setMem_writeBytes (by omega)
    · rwa [operate_loadProgram_of_gt (by omega)]
  | setKeys snapshot => exact h.setKey snapshot
  | step =>
    simp only [operate]
    split
    · exact step_meetsInv h _ ‹_›
    · exact h
  | readFramebuffer => exact h
  | clearRedrawFlag => exact h.setRedraw false

/-- Settles O51, by induction on how a state is reached: reset meets the invariant and every operation keeps it. -/
theorem reachableStatesMeetInvariant : Obligations.ReachableStatesMeetInvariant := by
  refine ⟨fun s op h => operate_keeps_inv op h, fun s hs => ?_⟩
  induction hs with
  | reset => exact inv_reset
  | operate s op _ ih => exact operate_keeps_inv op ih

end Sys2Proof.Machine

/-! # The counter of free inputs (R14, R20)

A state with another counter runs to the same outcome with that counter, unless the step reads a free input; a step that
does is one shared update, `receive`, of the byte the input gives. -/

namespace Sys2Proof.Machine

/-! ## Another counter -/

/-- The state with another value of the model's counter (log entry 5). -/
def State.withDraws (s : State) (d : Nat) : State := { s with draws := d }

/-- The outcome with another value of the counter in the state it answers with. -/
def resultWithDraws (d : Nat) : Result → Result
  | .next s    => .next (s.withDraws d)
  | .fault f   => .fault f
  | .refused r => .refused r

section
variable (s : State) (d : Nat)

@[simp] theorem State.withDraws_key : (s.withDraws d).key = s.key := rfl
@[simp] theorem State.withDraws_draws : (s.withDraws d).draws = d := rfl
@[simp] theorem State.withDraws_toRecord : (s.withDraws d).toRecord = s.toRecord := rfl
@[simp] theorem State.withDraws_self : s.withDraws s.draws = s := rfl

/-- A state that another counter leaves as it is has that counter. -/
theorem State.draws_eq_of_withDraws_eq {t : State} (h : t.withDraws d = t) : t.draws = d := by
  rw [← h, State.withDraws_draws]

/-- Two states of one record differ by their counter. -/
theorem State.exists_withDraws_of_toRecord_eq {s t : State} (h : s.toRecord = t.toRecord) :
    ∃ d, t = s.withDraws d := ⟨t.draws, State.eq_of_toRecord_eq h⟩

/-! ## Shared operations -/

theorem resultWithDraws_withDataRange (base count : Nat) (k : Result) :
    resultWithDraws d (withDataRange base count k) = withDataRange base count (resultWithDraws d k) :=
  apply_ite (resultWithDraws d) _ _ _

theorem resultWithDraws_withKey (x : Reg) (k : Bool → Result) :
    resultWithDraws d (withKey x s k) = withKey x (s.withDraws d) (fun b => resultWithDraws d (k b)) :=
  apply_ite (resultWithDraws d) _ _ _

theorem loadRegs_withDraws (l : List Nat) : loadRegs (s.withDraws d) l = (loadRegs s l).withDraws d :=
  List.foldl_hom (State.withDraws · d) (fun _ _ => rfl)

theorem resultWithDraws_finish (r : Result) : resultWithDraws d (finish r) = finish (resultWithDraws d r) := by
  cases r <;> rfl

/-! ## Instructions that read no input -/

/-- Whether executing `i` from `s` reads a free input: `Cxkk` does, and `Fx0A` with a key down (R14). -/
def ReadsInput (i : Instr) (s : State) : Prop := (∃ x kk, i = .rnd x kk) ∨ ((∃ x, i = .ldVxK x) ∧ s.key ≠ 0)

theorem execLdVxK_of_noKey {s : State} (x : Reg) (h : s.key = 0) : execLdVxK x s = .next s := by
  simp only [execLdVxK, (pressedKeys_eq_nil s.key).2 h]

/-- The counter decides nothing in an instruction that reads no input, and runs through it. -/
theorem resultWithDraws_exec {i : Instr} (h : ¬ ReadsInput i s) :
    resultWithDraws d (exec i s) = exec i (s.withDraws d) := by
  cases i with
  | rnd x kk => exact absurd (.inl ⟨x, kk, rfl⟩) h
  | ldVxK x =>
    have hkey : s.key = 0 := not_not.1 fun hk => h (.inr ⟨⟨x, rfl⟩, hk⟩)
    change resultWithDraws d (execLdVxK x s) = execLdVxK x (s.withDraws d)
    rw [execLdVxK_of_noKey x hkey, execLdVxK_of_noKey x (s.withDraws_key d ▸ hkey)]; rfl
  | ret => exact (apply_ite (resultWithDraws d) _ _ _).trans rfl
  | call addr => exact (apply_dite (resultWithDraws d) _ _ _).trans rfl
  | drw | ldB => exact (resultWithDraws_withDataRange d _ _ _).trans rfl
  | ldVxMem x =>
    refine (resultWithDraws_withDataRange d _ _ _).trans ?_
    change _ = withDataRange _ _ (sequential (loadRegs (s.withDraws d) _))
    rw [loadRegs_withDraws]; rfl
  | skp x => exact resultWithDraws_withKey s d x (skipIf · s)
  | sknp x => exact resultWithDraws_withKey s d x fun down => skipIf (!down) s
  | cls | jp | seByte | sneByte | seReg | sneReg | ldByte | addByte | ldReg | orReg | andReg | xorReg | addReg | subReg
  | shr | subnReg | shl | ldI | jpV0 | ldVxDt | ldDtVx | ldStVx | addI | ldF | ldMemVx => rfl

/-! ## Steps that read an input -/

/-- The state after a step that reads an input and leaves the byte `b` in Vx: one input is counted, PC goes on, the timers
tick (R133, R182). -/
def State.receive (s : State) (x : Reg) (b : Byte) : State := tick ((s.setReg x b).countDraw.setPc (s.pc + 2))

theorem step_rnd {s : State} {x : Reg} {kk : Byte} (h : fetchInstr s = .ok (.rnd x kk)) :
    step s = .next (s.receive x (Config.rnd s.draws &&& kk)) := step_of_fetchInstr h

theorem step_ldVxK_of_key {s : State} {x : Reg} (h : fetchInstr s = .ok (.ldVxK x)) (hkey : s.key ≠ 0) :
    step s = .next (s.receive x (BitVec.ofNat 8 (selectKey s.draws s.key (pressedKeys s.key)))) := by
  rw [step_of_fetchInstr h]
  change finish (execLdVxK x s) = _
  unfold execLdVxK
  split
  · exact absurd ((pressedKeys_eq_nil s.key).1 ‹_›) hkey
  · rw [‹pressedKeys s.key = _›]; rfl

theorem receive_draws (x : Reg) (b : Byte) : (s.receive x b).draws = s.draws + 1 := rfl

theorem receive_withDraws_toRecord (x : Reg) (b : Byte) :
    ((s.withDraws d).receive x b).toRecord = (s.receive x b).toRecord := rfl

/-- Two bytes received from one record leave states that differ in Vx and the counter alone. -/
theorem unchangedBut_receive (x : Reg) (b c : Byte) :
    UnchangedBut (fun p => p = .reg x ∨ p = .draws) (s.receive x b) ((s.withDraws d).receive x c) := by
  apply unchangedBut_of
  case reg =>
    intro r hr
    have hne : x ≠ r := fun h => hr (.inl (congrArg Part.reg h.symm))
    exact (State.reg_setReg_of_ne _ c hne).trans (State.reg_setReg_of_ne _ b hne).symm
  case draws => exact fun h => absurd (.inr rfl) h
  all_goals intros; rfl

/-- With at most one key down the selection does not depend on the draw (R182, U7). -/
theorem selectKey_eq_of_unique (d e : Nat) {key : BitVec 16}
    (h : ∀ k l : Fin 16, key.getLsbD k.val = true → key.getLsbD l.val = true → k = l) :
    selectKey d key (pressedKeys key) = selectKey e key (pressedKeys key) := by
  by_cases hnil : pressedKeys key = []
  · rw [hnil]; rfl
  · obtain ⟨hk, hkdown⟩ := (mem_pressedKeys _ _).1 (selectKey_mem d key _ hnil)
    obtain ⟨hl, hldown⟩ := (mem_pressedKeys _ _).1 (selectKey_mem e key _ hnil)
    exact congrArg Fin.val (h ⟨_, hk⟩ ⟨_, hl⟩ hkdown hldown)

/-! ## Steps and operations of two states of one record -/

theorem fetchInstr_withDraws : fetchInstr (s.withDraws d) = fetchInstr s :=
  fetchInstr_congr (fun _ => rfl) rfl

/-- A step that reads no input runs alike from every counter. -/
theorem resultWithDraws_step {s : State} {i : Instr} (hi : fetchInstr s = .ok i) (h : ¬ ReadsInput i s) :
    resultWithDraws d (step s) = step (s.withDraws d) := by
  rw [step_of_fetchInstr hi, step_of_fetchInstr ((fetchInstr_withDraws s d).trans hi), resultWithDraws_finish,
    resultWithDraws_exec s d h]

/-- A step that reads an input does not fault. -/
theorem step_ne_fault_of_readsInput {s : State} {i : Instr} (hi : fetchInstr s = .ok i) (h : ReadsInput i s)
    (f : Fault) : step s ≠ .fault f := by
  obtain ⟨x, kk, rfl⟩ | ⟨⟨x, rfl⟩, hkey⟩ := h
  · simp [step_rnd hi]
  · simp [step_ldVxK_of_key hi hkey]

theorem step_fault_withDraws {s : State} {f : Fault} (h : step s = .fault f) : step (s.withDraws d) = .fault f := by
  obtain hf | ⟨i, hi, -⟩ := step_fault h
  · have hg := (fetchInstr_withDraws s d).trans hf
    simp only [step, hg, raise_eq]
  · have hquiet : ¬ ReadsInput i s := fun hr => step_ne_fault_of_readsInput hi hr f h
    rw [← resultWithDraws_step d hi hquiet, h]; rfl

/-- The host's operations run alike from every counter. -/
theorem operate_withDraws {op : Operation} (h : op ≠ .step) :
    operate op (s.withDraws d) = (operate op s).withDraws d := by
  cases op with
  | step => exact absurd rfl h
  | loadProgram bytes =>
    by_cases hfit : bytes.length ≤ 3584
    · rw [operate_loadProgram_of_le hfit, operate_loadProgram_of_le hfit]; rfl
    · rw [operate_loadProgram_of_gt (by omega), operate_loadProgram_of_gt (by omega)]
  | initializeMachine | setKeys | readFramebuffer | clearRedrawFlag => rfl

theorem operate_draws {op : Operation} (h : op ≠ .step) : (operate op s).draws = s.draws :=
  State.draws_eq_of_withDraws_eq _ (operate_withDraws s s.draws h).symm

/-- A completed step that reads no input leaves one record and the counter alone. -/
theorem step_next_withDraws {s s' : State} {i : Instr} (hi : fetchInstr s = .ok i) (h : ¬ ReadsInput i s)
    (hs : step s = .next s') : step (s.withDraws d) = .next (s'.withDraws d) ∧ s'.draws = s.draws := by
  have hstep := resultWithDraws_step d hi h
  have hself := resultWithDraws_step s.draws hi h
  rw [hs] at hstep hself
  rw [State.withDraws_self, hs] at hself
  exact ⟨hstep.symm, State.draws_eq_of_withDraws_eq _ (Host.Outcome.next.inj hself)⟩

end

/-- Settles O56: a state of the same record is the state with another counter, which a fetch, a fault and an operation of
the host do not read, and which a step reads only to take its input. -/
theorem counterOnlyPicksInputs : Obligations.CounterOnlyPicksInputs := by
  intro s t hst
  obtain ⟨d, rfl⟩ := State.exists_withDraws_of_toRecord_eq hst
  refine ⟨(fetchInstr_withDraws s d).symm, fun f => ⟨step_fault_withDraws d, step_fault_withDraws s.draws⟩,
    fun i s' hi hs => ?_, fun op hop => ⟨by rw [operate_withDraws s d hop, State.withDraws_toRecord],
      operate_draws s hop⟩⟩
  have hi' : fetchInstr (s.withDraws d) = .ok i := (fetchInstr_withDraws s d).trans hi
  by_cases hr : ReadsInput i s
  · obtain ⟨x, kk, rfl⟩ | ⟨⟨x, rfl⟩, hkey⟩ := hr
    · obtain rfl := Host.Outcome.next.inj ((step_rnd hi).symm.trans hs)
      refine ⟨_, step_rnd hi', fun h => absurd rfl (h x kk), ?_, nofun⟩
      rintro _ _ ⟨⟩
      refine ⟨receive_draws s x _, unchangedBut_receive s d x _ _, fun hb => ?_⟩
      rw [receive_withDraws_toRecord, hb]
    · obtain rfl := Host.Outcome.next.inj ((step_ldVxK_of_key hi hkey).symm.trans hs)
      refine ⟨_, step_ldVxK_of_key hi' hkey, fun _ h => ?_, nofun, ?_⟩
      · exact absurd hkey (not_not.2 (h.resolve_left fun hne => hne x rfl))
      · rintro _ ⟨⟩ -
        refine ⟨receive_draws s x _, unchangedBut_receive s d x _ _, fun huniq => ?_⟩
        rw [receive_withDraws_toRecord, State.withDraws_key, selectKey_eq_of_unique _ s.draws huniq]
  · obtain ⟨ht, hdraws⟩ := step_next_withDraws d hi hr hs
    exact ⟨_, ht, fun _ _ => ⟨rfl, hdraws⟩, fun x kk h => absurd (.inl ⟨x, kk, h⟩) hr,
      fun x h hkey => absurd (.inr ⟨⟨x, h⟩, hkey⟩) hr⟩

end Sys2Proof.Machine

/-! # Every step keeps the invariant (R25 to R27) -/

namespace Sys2Proof.Machine

/-- Settles O50: PC is one a fetch can have, from which every instruction keeps the invariant, and so does the tick. -/
theorem stepKeepsInvariant : Obligations.StepKeepsInvariant := fun _ t h ht => step_meetsInv h t ht

end Sys2Proof.Machine

/-! # What an instruction writes (R7, R21, R22, R24, R26 to R29, R34 to R36)

The parts each instruction may write stand once in `MayWrite`, and `exec_frame` says that every other part is left as it
was; the statements about who writes what, and the timers of a step, follow from it. PC, which every instruction may
write, has `exec_pc`. -/

namespace Sys2Proof.Machine

/-! ## The state an outcome answers with -/

/-- The state an outcome answers with, if it answers with one, satisfies `P`. -/
def NextSatisfies (P : State → Prop) (r : Result) : Prop := ∀ t, r = .next t → P t

section
variable {P : State → Prop} {s : State}

theorem nextSatisfies_next (h : P s) : NextSatisfies P (.next s) := by
  rintro t ⟨⟩; exact h

theorem nextSatisfies_raise (f : Fault) : NextSatisfies P (raise f) := by
  rintro t ⟨⟩

theorem nextSatisfies_withDataRange {base count : Nat} {k : Result} (hk : NextSatisfies P k) :
    NextSatisfies P (withDataRange base count k) :=
  fun t ht => hk t (withDataRange_next ht).2

theorem nextSatisfies_withKey {x : Reg} {k : Bool → Result} (hk : NextSatisfies P (k (s.keyDown (s.reg x).toNat))) :
    NextSatisfies P (withKey x s k) :=
  fun t ht => hk t (withKey_next ht).2

end

/-! ## A frame through each update of the state -/

section
variable {W : Part → Prop} {s t : State}

theorem UnchangedBut.setReg (h : UnchangedBut W s t) {r : Reg} (hr : W (.reg r)) (b : Byte) :
    UnchangedBut W s (t.setReg r b) := h.trans fun p hp => by
  cases p with
  | reg q =>
    have hne : r ≠ q := fun hrq => hp (hrq ▸ hr)
    exact congrArg BitVec.toNat (State.reg_setReg_of_ne t b hne)
  | _ => rfl

theorem UnchangedBut.flagThenResult (h : UnchangedBut W s t) {x : Reg} (hvf : W (.reg vf)) (hx : W (.reg x))
    (flag result : State → Byte) : UnchangedBut W s (flagThenResult flag x result t) :=
  (h.setReg hvf _).setReg hx _

theorem UnchangedBut.loadRegs (h : UnchangedBut W s t) {n : Nat} (hn : n ≤ 16)
    (hw : ∀ r : Reg, r.toNat < n → W (.reg r)) : UnchangedBut W s (loadRegs t (List.range n)) := h.trans fun p hp => by
  cases p with
  | reg r =>
    have hge : ¬ r.toNat < n := fun hlt => hp (hw r hlt)
    exact congrArg BitVec.toNat ((reg_loadRegs t n hn r).trans (if_neg hge))
  | _ => rw [loadRegs_frame]; rfl

theorem UnchangedBut.setI (h : UnchangedBut W s t) (hi : W .index) (a : Word) : UnchangedBut W s (t.setI a) :=
  h.trans fun p hp => by
    cases p with
    | index => exact absurd hi hp
    | _ => rfl

theorem UnchangedBut.setDt (h : UnchangedBut W s t) (hdt : W .delayTimer) (b : Byte) :
    UnchangedBut W s (t.setDt b) := h.trans fun p hp => by
  cases p with
  | delayTimer => exact absurd hdt hp
  | _ => rfl

theorem UnchangedBut.setSt (h : UnchangedBut W s t) (hst : W .soundTimer) (b : Byte) :
    UnchangedBut W s (t.setSt b) := h.trans fun p hp => by
  cases p with
  | soundTimer => exact absurd hst hp
  | _ => rfl

theorem UnchangedBut.setFb (h : UnchangedBut W s t) {f : FrameBuffer}
    (hf : ∀ c : Fin 2048, ¬ W (.cell c) → f.getLsbD c.val = t.fb.getLsbD c.val) : UnchangedBut W s (t.setFb f) :=
  h.trans fun p hp => by
    cases p with
    | cell c => exact congrArg Bool.toNat (hf c hp)
    | _ => rfl

theorem UnchangedBut.setRedraw (h : UnchangedBut W s t) (hredraw : W .redraw) (b : Bool) :
    UnchangedBut W s (t.setRedraw b) := h.trans fun p hp => by
  cases p with
  | redraw => exact absurd hredraw hp
  | _ => rfl

theorem UnchangedBut.setMem (h : UnchangedBut W s t) {m : Memory}
    (hm : ∀ a, ¬ W (.memory a) → Memory.read m a = t.byteAt a) : UnchangedBut W s (t.setMem m) := h.trans fun p hp => by
  cases p with
  | memory a => exact congrArg BitVec.toNat (hm a hp)
  | _ => rfl

theorem UnchangedBut.countDraw (h : UnchangedBut W s t) (hdraws : W .draws) : UnchangedBut W s t.countDraw :=
  h.trans fun p hp => by
    cases p with
    | draws => exact absurd hdraws hp
    | _ => rfl

theorem UnchangedBut.push (h : UnchangedBut W s t) (hsp : t.sp.val < 16) (hpointer : W .stackPointer)
    (hentry : W (.stackEntry ⟨t.sp.val, hsp⟩)) (a : Word) : UnchangedBut W s (t.push a hsp) := h.trans fun p hp => by
  cases p with
  | stackPointer => exact absurd hpointer hp
  | stackEntry k =>
    have hne : t.sp.val ≠ k.val := fun hk => hp (by simpa only [hk] using hentry)
    exact congrArg BitVec.toNat (Vector.getElem_set_ne hsp k.isLt hne)
  | _ => rfl

theorem UnchangedBut.pop (h : UnchangedBut W s t) (hpointer : W .stackPointer) : UnchangedBut W s t.pop :=
  h.trans fun p hp => by
    cases p with
    | stackPointer => exact absurd hpointer hp
    | _ => rfl

/-! ## The fields a frame keeps -/

theorem boolToNat_injective : Function.Injective Bool.toNat := Function.LeftInverse.injective Bool.ofNat_toNat

theorem UnchangedBut.reg_eq (h : UnchangedBut W s t) {r : Reg} (hr : ¬ W (.reg r)) : t.reg r = s.reg r :=
  BitVec.eq_of_toNat_eq (h _ hr)

theorem UnchangedBut.i_eq (h : UnchangedBut W s t) (hi : ¬ W .index) : t.i = s.i := BitVec.eq_of_toNat_eq (h _ hi)

theorem UnchangedBut.stack_eq (h : UnchangedBut W s t) (hk : ∀ k, ¬ W (.stackEntry k)) : t.stack = s.stack :=
  Vector.ext fun k hlt => BitVec.eq_of_toNat_eq (h _ (hk ⟨k, hlt⟩))

theorem UnchangedBut.sp_eq (h : UnchangedBut W s t) (hsp : ¬ W .stackPointer) : t.sp = s.sp := Fin.ext (h _ hsp)

theorem UnchangedBut.dt_eq (h : UnchangedBut W s t) (hdt : ¬ W .delayTimer) : t.dt = s.dt :=
  BitVec.eq_of_toNat_eq (h _ hdt)

theorem UnchangedBut.st_eq (h : UnchangedBut W s t) (hst : ¬ W .soundTimer) : t.st = s.st :=
  BitVec.eq_of_toNat_eq (h _ hst)

theorem UnchangedBut.key_eq (h : UnchangedBut W s t) (hk : ∀ k, ¬ W (.key k)) : t.key = s.key :=
  BitVec.eq_of_getLsbD_eq fun k hlt => boolToNat_injective (h _ (hk ⟨k, hlt⟩))

theorem UnchangedBut.fb_eq (h : UnchangedBut W s t) (hc : ∀ c, ¬ W (.cell c)) : t.fb = s.fb :=
  BitVec.eq_of_getLsbD_eq fun c hlt => boolToNat_injective (h _ (hc ⟨c, hlt⟩))

theorem UnchangedBut.redraw_eq (h : UnchangedBut W s t) (hredraw : ¬ W .redraw) : t.redraw = s.redraw :=
  boolToNat_injective (h _ hredraw)

theorem UnchangedBut.byteAt_eq (h : UnchangedBut W s t) {a : Nat} (ha : ¬ W (.memory a)) : t.byteAt a = s.byteAt a :=
  BitVec.eq_of_toNat_eq (h _ ha)

end

/-! ## The parts each instruction may write -/

/-- The parts an instruction may write, part by part, by the rules of 10_state.md. -/
def MayWrite (i : Instr) : Part → Prop
  | .reg r        => isDestination i r = true ∨ (writesFlag i = true ∧ r = vf)
  | .index        => (∃ a, i = .ldI a) ∨ (∃ x, i = .addI x) ∨ ∃ x, i = .ldF x
  | .pc           => True
  | .stackEntry _ => ∃ a, i = .call a
  | .stackPointer => (∃ a, i = .call a) ∨ i = .ret
  | .delayTimer   => ∃ x, i = .ldDtVx x
  | .soundTimer   => ∃ x, i = .ldStVx x
  | .key _        => False
  | .cell _       => i = .cls ∨ ∃ x y n, i = .drw x y n
  | .redraw       => i = .cls ∨ ∃ x y n, i = .drw x y n
  | .memory _     => ∃ x, i = .ldB x
  | .draws        => (∃ x kk, i = .rnd x kk) ∨ ∃ x, i = .ldVxK x

section
variable {i : Instr} {s t u : State}

/-- PC is a part every instruction may write. -/
theorem nextUnchanged_setPc (h : UnchangedBut (MayWrite i) s u) (a : Word) :
    NextSatisfies (UnchangedBut (MayWrite i) s) (.next (u.setPc a)) :=
  nextSatisfies_next (h.setPc trivial a)

theorem nextUnchanged_execRet (s : State) : NextSatisfies (UnchangedBut (MayWrite .ret) s) (execRet s) := by
  unfold execRet
  split
  · exact nextSatisfies_raise _
  · exact nextUnchanged_setPc ((UnchangedBut.refl _ s).pop (.inr rfl)) _

theorem nextUnchanged_execCall (addr : Addr) (s : State) :
    NextSatisfies (UnchangedBut (MayWrite (.call addr)) s) (execCall addr s) := by
  unfold execCall
  split
  · exact nextUnchanged_setPc ((UnchangedBut.refl _ s).push _ (.inl ⟨addr, rfl⟩) ⟨addr, rfl⟩ _) _
  · exact nextSatisfies_raise _

theorem nextUnchanged_execLdVxK (x : Reg) (s : State) :
    NextSatisfies (UnchangedBut (MayWrite (.ldVxK x)) s) (execLdVxK x s) := by
  have h := UnchangedBut.refl (MayWrite (.ldVxK x)) s
  unfold execLdVxK
  split
  · exact nextSatisfies_next h
  · exact nextUnchanged_setPc ((h.setReg (.inl (beq_self_eq_true x)) _).countDraw (.inr ⟨x, rfl⟩)) _

theorem nextUnchanged_execDrw (x y : Reg) (n : Nibble) (s : State) :
    NextSatisfies (UnchangedBut (MayWrite (.drw x y n)) s) (execDrw x y n s) := by
  have hscreen : ∃ x' y' n', Instr.drw x y n = .drw x' y' n' := ⟨x, y, n, rfl⟩
  have h := (UnchangedBut.refl (MayWrite (.drw x y n)) s).setReg (r := vf) (.inr ⟨rfl, rfl⟩)
  exact nextSatisfies_withDataRange
    (nextUnchanged_setPc (((h _).setFb fun _ hc => absurd (.inr hscreen) hc).setRedraw (.inr hscreen) true) _)

theorem nextUnchanged_execLdVxMem (x : Reg) (s : State) :
    NextSatisfies (UnchangedBut (MayWrite (.ldVxMem x)) s) (execLdVxMem x s) := by
  have h := UnchangedBut.refl (MayWrite (.ldVxMem x)) s
  have hregs : ∀ r : Reg, r.toNat < x.toNat + 1 → MayWrite (.ldVxMem x) (.reg r) :=
    fun _ hr => .inl (decide_eq_true (Nat.le_of_lt_succ hr))
  exact nextSatisfies_withDataRange (nextUnchanged_setPc (h.loadRegs (by omega) hregs) _)

/-- An instruction leaves every part but those it may write (R7). -/
theorem exec_frame (h : exec i s = .next t) : UnchangedBut (MayWrite i) s t := by
  have hs := UnchangedBut.refl (MayWrite i) s
  suffices NextSatisfies (UnchangedBut (MayWrite i) s) (exec i s) from this t h
  cases i with
  | cls => exact nextUnchanged_setPc ((hs.setFb fun _ hc => absurd (.inl rfl) hc).setRedraw (.inl rfl) true) _
  | ret => exact nextUnchanged_execRet s
  | call addr => exact nextUnchanged_execCall addr s
  | jp | jpV0 | seByte | sneByte | seReg | sneReg => exact nextUnchanged_setPc hs _
  | skp => exact nextSatisfies_withKey (k := (skipIf · s)) (nextUnchanged_setPc hs _)
  | sknp => exact nextSatisfies_withKey (k := fun down => skipIf (!down) s) (nextUnchanged_setPc hs _)
  | ldByte x | addByte x | ldReg x | orReg x | andReg x | xorReg x | ldVxDt x =>
    exact nextUnchanged_setPc (hs.setReg (.inl (beq_self_eq_true x)) _) _
  | addReg x | subReg x | shr x | subnReg x | shl x =>
    exact nextUnchanged_setPc (hs.flagThenResult (.inr ⟨rfl, rfl⟩) (.inl (beq_self_eq_true x)) _ _) _
  | rnd x kk =>
    exact nextUnchanged_setPc ((hs.setReg (.inl (beq_self_eq_true x)) _).countDraw (.inl ⟨x, kk, rfl⟩)) _
  | drw x y n => exact nextUnchanged_execDrw x y n s
  | ldVxK x => exact nextUnchanged_execLdVxK x s
  | ldDtVx x => exact nextUnchanged_setPc (hs.setDt ⟨x, rfl⟩ _) _
  | ldStVx x => exact nextUnchanged_setPc (hs.setSt ⟨x, rfl⟩ _) _
  | ldI addr => exact nextUnchanged_setPc (hs.setI (.inl ⟨addr, rfl⟩) _) _
  | addI x => exact nextUnchanged_setPc (hs.setI (.inr (.inl ⟨x, rfl⟩)) _) _
  | ldF x => exact nextUnchanged_setPc (hs.setI (.inr (.inr ⟨x, rfl⟩)) _) _
  | ldB x =>
    exact nextSatisfies_withDataRange (nextUnchanged_setPc (hs.setMem fun _ ha => absurd ⟨x, rfl⟩ ha) _)
  | ldMemVx => exact nextSatisfies_raise _
  | ldVxMem x => exact nextUnchanged_execLdVxMem x s

/-- The two instructions of the display set REDRAW, whatever they draw (R36). -/
theorem exec_sets_redraw (hi : i = .cls ∨ ∃ x y n, i = .drw x y n) (h : exec i s = .next t) : t.redraw = true := by
  suffices NextSatisfies (fun t => t.redraw = true) (exec i s) from this t h
  obtain rfl | ⟨x, y, n, rfl⟩ := hi
  · exact nextSatisfies_next rfl
  · exact nextSatisfies_withDataRange (nextSatisfies_next rfl)

/-- A step that completes executed the instruction fetched and ticked the timers. -/
theorem step_next_of_fetchInstr (hi : fetchInstr s = .ok i) (h : step s = .next t) :
    ∃ u, exec i s = .next u ∧ t = tick u :=
  finish_eq_next.1 ((step_of_fetchInstr hi).symm.trans h)

theorem exec_keeps_dt (h : exec i s = .next t) (hi : ∀ x, i ≠ .ldDtVx x) : t.dt = s.dt :=
  (exec_frame h).dt_eq fun ⟨x, hx⟩ => hi x hx

theorem exec_keeps_st (h : exec i s = .next t) (hi : ∀ x, i ≠ .ldStVx x) : t.st = s.st :=
  (exec_frame h).st_eq fun ⟨x, hx⟩ => hi x hx

theorem exec_keeps_key (h : exec i s = .next t) : t.key = s.key := (exec_frame h).key_eq fun _ => id

theorem exec_ldDtVx_dt {x : Reg} (h : exec (.ldDtVx x) s = .next t) : t.dt = s.reg x := by
  cases h; rfl

theorem exec_ldStVx_st {x : Reg} (h : exec (.ldStVx x) s = .next t) : t.st = s.reg x := by
  cases h; rfl

end

/-- Settles O44: a register an instruction may write is its destination, or VF for the six of R22. -/
theorem registersWritten : Obligations.RegistersWritten := by
  intro i s t r h hdest hflag
  refine (exec_frame h).reg_eq ?_
  rintro (hr | ⟨hw, hr⟩)
  · rw [hdest] at hr; cases hr
  · exact hflag hw hr

/-- Settles O45, from the frame of every instruction and from the two that set REDRAW. -/
theorem memoryAndScreenWriters : Obligations.MemoryAndScreenWriters := by
  intro i s t h
  refine ⟨fun hi _ => (exec_frame h).byteAt_eq fun ⟨x, hx⟩ => hi x hx, fun hcls hdrw => ?_,
    fun hi => exec_sets_redraw hi h⟩
  have hscreen : ¬ (i = .cls ∨ ∃ x y n, i = .drw x y n) := by
    rintro (hi | ⟨x, y, n, hi⟩)
    · exact hcls hi
    · exact hdrw x y n hi
  exact ⟨(exec_frame h).fb_eq fun _ => hscreen, (exec_frame h).redraw_eq hscreen⟩

/-- Settles O46, from the frame of every instruction. -/
theorem stackAndIndexWriters : Obligations.StackAndIndexWriters := by
  intro i s t h
  refine ⟨fun hcall hret => (exec_frame h).sp_eq ?_, fun hcall => (exec_frame h).stack_eq fun _ ⟨a, ha⟩ => hcall a ha,
    fun hldI haddI hldF => (exec_frame h).i_eq ?_⟩
  · rintro (⟨a, hi⟩ | hi)
    · exact hcall a hi
    · exact hret hi
  · rintro (⟨a, hi⟩ | ⟨x, hi⟩ | ⟨x, hi⟩)
    · exact hldI a hi
    · exact haddI x hi
    · exact hldF x hi

/-- Settles O47: no instruction writes the latch and the tick leaves it; the timers are in the frame of the others. -/
theorem keypadAndTimerWriters : Obligations.KeypadAndTimerWriters := by
  refine ⟨fun s t h => ?_, fun i s t h => ⟨exec_keeps_dt h, exec_keeps_st h⟩⟩
  obtain ⟨i, u, -, hu, rfl⟩ := step_next h
  exact (tick_key u).trans (exec_keeps_key hu)

/-- Settles O35: after Execute a timer is the one before it, or the one `Fx15` or `Fx18` set, and the tick counts it
down. -/
theorem timersTickEachStep : Obligations.TimersTickEachStep := by
  refine ⟨fun s t i hi h => ?_, fun s f h => ?_⟩
  · obtain ⟨u, hu, rfl⟩ := step_next_of_fetchInstr hi h
    rw [tick_dt, tick_st, toNat_countDown, toNat_countDown]
    refine ⟨fun hne => ?_, ?_, fun hne => ?_, ?_⟩
    · rw [exec_keeps_dt hu hne]
    · rintro x rfl; rw [exec_ldDtVx_dt hu]
    · rw [exec_keeps_st hu hne]
    · rintro x rfl; rw [exec_ldStVx_st hu]
  · rw [operate_step_fault h]; exact ⟨rfl, rfl⟩

/-! ## PC after an instruction -/

section
variable {s : State}

theorem zextAddr_eq_ofNat (a : Addr) : zextAddr a = BitVec.ofNat 16 a.toNat := (BitVec.ofNat_toNat 16 a).symm

theorem offsetTarget_eq_ofNat (s : State) (a : Addr) :
    offsetTarget s a = BitVec.ofNat 16 (a.toNat + (s.reg 0).toNat) := by
  rw [← toNat_offsetTarget, BitVec.ofNat_toNat, BitVec.setWidth_eq]

/-- The entry a return reads, as an element of the list of entries (R100). -/
theorem State.topEntry_eq_getD (s : State) : s.topEntry = s.stack.toList.getD (s.sp.val - 1) 0 := by
  have hlt : s.sp.val - 1 < s.stack.toList.length := by simp; omega
  rw [List.getD_eq_getElem _ _ hlt]; rfl

/-- The conditional-skip class (R24), from what its condition says. -/
theorem nextPc_skipIf {c : Bool} {p : Prop} [Decidable p] (hc : c = true ↔ p) :
    NextSatisfies (fun t => t.pc = if p then s.pc + 4 else s.pc + 2) (skipIf c s) :=
  nextSatisfies_next (if_congr hc rfl rfl)

theorem nextPc_execRet (s : State) : NextSatisfies (fun t => t.pc = pcAfter .ret s) (execRet s) := by
  unfold execRet
  split
  · exact nextSatisfies_raise _
  · exact nextSatisfies_next s.topEntry_eq_getD

theorem nextPc_execCall (addr : Addr) (s : State) :
    NextSatisfies (fun t => t.pc = pcAfter (.call addr) s) (execCall addr s) := by
  unfold execCall
  split
  · exact nextSatisfies_next (zextAddr_eq_ofNat addr)
  · exact nextSatisfies_raise _

/-- `Fx0A` goes on exactly when a key is down (R182, R187). -/
theorem nextPc_execLdVxK (x : Reg) (s : State) :
    NextSatisfies (fun t => t.pc = pcAfter (.ldVxK x) s) (execLdVxK x s) := by
  by_cases hkey : s.key = 0
  · rw [execLdVxK_of_noKey x hkey]
    exact nextSatisfies_next (if_neg (not_not.2 hkey)).symm
  · unfold execLdVxK
    split
    · exact absurd ((pressedKeys_eq_nil s.key).1 ‹_›) hkey
    · exact nextSatisfies_next (if_pos hkey).symm

/-- PC after an instruction that completes, by its class (R24). -/
theorem exec_pc {i : Instr} {t : State} (h : exec i s = .next t) : t.pc = pcAfter i s := by
  suffices NextSatisfies (fun t => t.pc = pcAfter i s) (exec i s) from this t h
  cases i with
  | ret => exact nextPc_execRet s
  | call addr => exact nextPc_execCall addr s
  | jp addr => exact nextSatisfies_next (zextAddr_eq_ofNat addr)
  | jpV0 addr => exact nextSatisfies_next (offsetTarget_eq_ofNat s addr)
  | seByte | seReg => exact nextPc_skipIf beq_iff_eq
  | sneByte | sneReg => exact nextPc_skipIf bne_iff_ne
  | skp x => exact nextSatisfies_withKey (k := (skipIf · s)) (nextPc_skipIf Iff.rfl)
  | sknp x =>
    exact nextSatisfies_withKey (k := fun down => skipIf (!down) s) (nextPc_skipIf (Bool.not_eq_true' _).to_iff)
  | ldVxK x => exact nextPc_execLdVxK x s
  | ldMemVx => exact nextSatisfies_raise _
  | ldVxMem => exact nextSatisfies_withDataRange (nextSatisfies_next (congrArg (· + 2) (loadRegs_pc s _)))
  | drw | ldB => exact nextSatisfies_withDataRange (nextSatisfies_next rfl)
  | cls | ldByte | addByte | ldReg | orReg | andReg | xorReg | addReg | subReg | shr | subnReg | shl | ldI | rnd
  | ldVxDt | ldDtVx | ldStVx | addI | ldF => exact nextSatisfies_next rfl

end

/-- Settles O41, from the PC of every instruction, which the tick leaves. -/
theorem pcByClass : Obligations.PcByClass := by
  refine ⟨fun i s t => exec_pc, fun s t i hi h => ?_, fun s f h => by rw [operate_step_fault h]⟩
  obtain ⟨u, hu, rfl⟩ := step_next_of_fetchInstr hi h
  exact (tick_pc u).trans (exec_pc hu)

/-! ## Nested calls -/

section
variable {s : State}

/-- A call with a free entry: the address after it is pushed (R102). -/
theorem exec_call_of_lt (a : Addr) (h : s.sp.val < 16) :
    exec (.call a) s = .next ((s.push (s.pc + 2) h).setPc (zextAddr a)) := dif_pos h

theorem exec_call_of_full (a : Addr) (h : ¬ s.sp.val < 16) : exec (.call a) s = .fault (.stackOverflow s.pc) :=
  dif_neg h

theorem exec_ret_of_empty (h : s.sp.val = 0) : exec .ret s = .fault (.stackUnderflow s.pc) := if_pos h

theorem runCalls_cons_of_lt (a : Addr) (as : List Addr) (h : s.sp.val < 16) :
    runCalls (a :: as) s = runCalls as ((s.push (s.pc + 2) h).setPc (zextAddr a)) := by
  simp only [runCalls, exec_call_of_lt a h]

theorem runCalls_cons_of_full (a : Addr) (as : List Addr) (h : ¬ s.sp.val < 16) :
    runCalls (a :: as) s = .fault (.stackOverflow s.pc) := by
  simp only [runCalls, exec_call_of_full a h]

/-- Calls for which the stack has room complete, and each takes one entry (R28). -/
theorem runCalls_of_room {targets : List Addr} (h : s.sp.val + targets.length ≤ 16) :
    ∃ t, runCalls targets s = .next t ∧ t.sp.val = s.sp.val + targets.length := by
  induction targets generalizing s with
  | nil => exact ⟨s, rfl, rfl⟩
  | cons a as ih =>
    rw [List.length_cons] at h ⊢
    have hfree : s.sp.val < 16 := by omega
    rw [runCalls_cons_of_lt a as hfree]
    obtain ⟨t, ht, hsp⟩ := ih (s := (s.push (s.pc + 2) hfree).setPc (zextAddr a)) (by simp; omega)
    exact ⟨t, ht, by rw [hsp]; simp; omega⟩

/-- Calls for which the stack has no room overflow it (R28). -/
theorem runCalls_of_no_room {targets : List Addr} (h : s.sp.val + targets.length > 16) :
    ∃ pc, runCalls targets s = .fault (.stackOverflow pc) := by
  induction targets generalizing s with
  | nil => have := s.sp.isLt; simp at h; omega
  | cons a as ih =>
    rw [List.length_cons] at h
    by_cases hfree : s.sp.val < 16
    · rw [runCalls_cons_of_lt a as hfree]
      exact ih (by simp; omega)
    · exact ⟨s.pc, runCalls_cons_of_full a as hfree⟩

end

/-- Settles O11: calls from an empty stack, by induction on the targets from any stack pointer. -/
theorem nestedCallsBounded : Obligations.NestedCallsBounded := by
  intro s hs
  refine ⟨fun targets h => ?_, fun targets h => runCalls_of_no_room (by omega), exec_ret_of_empty hs⟩
  obtain ⟨t, ht, hsp⟩ := runCalls_of_room (s := s) (targets := targets) (by omega)
  exact ⟨t, ht, by omega⟩

end Sys2Proof.Machine

/-! # Fetching from memory, and fetching what was stored (R52, R53, R64) -/

namespace Sys2Proof.Machine

section
variable {s t : State}

/-- The halves of a fetched word: the byte at PC is the high one, the byte at PC + 1 the low one (R53). -/
theorem fetch_ok_halves {w : Word} (h : fetch s = .ok w) :
    w.toNat / 256 = (s.byteAt s.pc.toNat).toNat ∧ w.toNat % 256 = (s.byteAt (s.pc.toNat + 1)).toNat := by
  by_cases hpc : s.pc.toNat ≤ 4094
  · obtain rfl := Except.ok.inj ((fetch_inside hpc).symm.trans h)
    rw [toNat_wordOfBytes]
    omega
  · rw [fetch_outside (by omega)] at h
    cases h

/-- Each decimal digit of a byte fits a byte (R153). -/
theorem map_toNat_decimalDigits (b : Byte) :
    (decimalDigits b).map BitVec.toNat = [b.toNat / 100, b.toNat / 10 % 10, b.toNat % 10] := by
  have hb := b.isLt
  simp (disch := omega) only [decimalDigits, List.map_cons, List.map_nil, BitVec.toNat_ofNat, Nat.mod_eq_of_lt]

/-- The cell `k` places after I holds digit `k` of Vx after `Fx33` (R153). -/
theorem exec_ldB_byteAt {x : Reg} (h : exec (.ldB x) s = .next t) {k : Nat} (hk : k < 3) :
    (t.byteAt (s.i.toNat + k)).toNat =
      [(s.reg x).toNat / 100, (s.reg x).toNat / 10 % 10, (s.reg x).toNat % 10].getD k 0 := by
  suffices NextSatisfies (fun t => t.byteAt (s.i.toNat + k) = (decimalDigits (s.reg x)).getD k 0)
      (exec (.ldB x) s) by
    rw [this t h, ← map_toNat_decimalDigits]
    exact (List.getD_map _ 0 BitVec.toNat).symm
  refine nextSatisfies_withDataRange (nextSatisfies_next ?_)
  have hrange : s.i.toNat ≤ s.i.toNat + k ∧ s.i.toNat + k < s.i.toNat + (decimalDigits (s.reg x)).length :=
    ⟨Nat.le_add_right _ _, Nat.add_lt_add_left hk _⟩
  calc Memory.read (Memory.writeBytes s.mem s.i.toNat (decimalDigits (s.reg x))) (s.i.toNat + k)
      = (decimalDigits (s.reg x)).getD (s.i.toNat + k - s.i.toNat) 0 := by
        rw [Memory.read_writeBytes, if_pos hrange]
    _ = (decimalDigits (s.reg x)).getD k 0 := by rw [Nat.add_sub_cancel_left]

end

/-- Settles O37: the two cases of the fetch, the word being made of its bytes. -/
theorem fetchReadsTwoBytes : Obligations.FetchReadsTwoBytes :=
  fun _ => ⟨fetch_outside, fun h => ⟨_, fetch_inside h, toNat_wordOfBytes _ _⟩⟩

/-- Settles O27: the next fetch reads its halves from the cells the step left, three of which hold the digits stored. -/
theorem storeSeenByNextFetch : Obligations.StoreSeenByNextFetch := by
  intro s t x w hi hstep hw
  obtain ⟨hhigh, hlow⟩ := fetch_ok_halves hw
  obtain ⟨u, hu, rfl⟩ := step_next_of_fetchInstr hi hstep
  have hhundreds := exec_ldB_byteAt hu (k := 0) (by decide)
  have htens := exec_ldB_byteAt hu (k := 1) (by decide)
  have hones := exec_ldB_byteAt hu (k := 2) (by decide)
  rw [hhigh, hlow]
  exact ⟨fun h => h ▸ hhundreds, fun h => h ▸ htens, fun h => h ▸ hones,
    fun h => h ▸ hhundreds, fun h => h ▸ htens, fun h => h ▸ hones⟩

end Sys2Proof.Machine

/-! # The encoding (R71 to R78)

The decoder answers every word faithfully: with an instruction whose word it is, or with `UnsupportedOpcode` for a word
whose fields R77 tabulates as illegal (`decodesFaithfully_decodeWord`). The encoder writes words of the instruction's row
of R76, a word of a row is not illegal by its fields, and no two rows overlap; the statements about decoder, encoder and
table follow from these. -/

namespace Sys2Proof

/-! ## Encode, then decode -/

/-- The decoder reads back every instruction from its word: the fields are those packed, by the formats of R71. -/
theorem decodeWord_encode (i : Instr) : decodeWord (encode i) = .ok i := by
  cases i with
  | cls | ret => rfl
  | jp | call | ldI | jpV0 => simp [encode, decodeWord]
  | seByte | sneByte | ldByte | addByte | rnd => simp [encode, decodeWord]
  | drw => simp [encode, decodeWord]
  | seReg | sneReg => simp [encode, decodeWord, decodeFixedZero]
  | ldReg | orReg | andReg | xorReg | addReg | subReg | shr | subnReg | shl =>
    simp [encode, decodeWord, decodeFamily8]
  | skp | sknp => simp [encode, decodeWord, decodeFamilyE]
  | ldVxDt | ldVxK | ldDtVx | ldStVx | addI | ldF | ldB | ldMemVx | ldVxMem =>
    simp [encode, decodeWord, decodeFamilyF]

/-- Two bytes and what follows decode as the word the two are (R53). -/
theorem decode_bytes_append {w : Word} {i : Instr} (h : decodeWord w = .ok i) (rest : List Byte) :
    decode ([highByte w, lowByte w] ++ rest) = .ok (i, rest) := by
  simp only [List.cons_append, List.nil_append, decode, wordOfBytes_bytes, h]

/-- Settles O2: the decoder reads back the word, and the two bytes are the word's. -/
theorem decodeOfEncode : Obligations.DecodeOfEncode :=
  fun i _ => ⟨decodeWord_encode i, decode_bytes_append (decodeWord_encode i)⟩

/-! ## What the decoder answers -/

/-- The illegal words as R77 tabulates them, by family and function code. -/
def IllegalByFields (w : Word) : Prop :=
  (opOf w = 0x0 ∧ w ≠ 0x00E0 ∧ w ≠ 0x00EE) ∨
  (opOf w = 0x5 ∧ nOf w ≠ 0) ∨
  (opOf w = 0x8 ∧ (nOf w).toNat ∈ [0x8, 0x9, 0xA, 0xB, 0xC, 0xD, 0xF]) ∨
  (opOf w = 0x9 ∧ nOf w ≠ 0) ∨
  (opOf w = 0xE ∧ (kkOf w).toNat ∉ [0x9E, 0xA1]) ∨
  (opOf w = 0xF ∧ (kkOf w).toNat ∉ [0x07, 0x0A, 0x15, 0x18, 0x1E, 0x29, 0x33, 0x55, 0x65])

/-- An answer to `w` that loses nothing: an instruction whose word is `w`, or that an illegal `w` is unsupported. -/
def DecodesFaithfully (w : Word) (d : Except DecodeError Instr) : Prop :=
  (∃ i, d = .ok i ∧ encode i = w) ∨ (d = .error (.unsupportedOpcode w) ∧ IllegalByFields w)

section
variable {w : Word}

theorem decodesFaithfully_ok {i : Instr} (h : encode i = w) : DecodesFaithfully w (.ok i) := .inl ⟨i, rfl, h⟩

theorem decodesFaithfully_error (h : IllegalByFields w) : DecodesFaithfully w (.error (.unsupportedOpcode w)) :=
  .inr ⟨rfl, h⟩

/-! A word whose fixed fields are known is the packing of these and of its own operand fields. -/

theorem packA_of_op {op : Nibble} (hop : opOf w = op) : packA op (addrOf w) = w := by
  rw [← hop, packA_fields]

theorem packXK_of_op {op : Nibble} (hop : opOf w = op) : packXK op (xOf w) (kkOf w) = w := by
  rw [← hop, packXK_fields]

theorem packXYN_of_op {op : Nibble} (hop : opOf w = op) : packXYN op (xOf w) (yOf w) (nOf w) = w := by
  rw [← hop, packXYN_fields]

theorem packXYN_of_op_n {op n : Nibble} (hop : opOf w = op) (hn : (nOf w).toNat = n.toNat) :
    packXYN op (xOf w) (yOf w) n = w := by
  rw [← BitVec.eq_of_toNat_eq hn, packXYN_of_op hop]

theorem packXK_of_op_kk {op : Nibble} {kk : Byte} (hop : opOf w = op) (hkk : (kkOf w).toNat = kk.toNat) :
    packXK op (xOf w) kk = w := by
  rw [← BitVec.eq_of_toNat_eq hkk, packXK_of_op hop]

theorem decodesFaithfully_decodeFamily0 (hop : opOf w = 0x0) : DecodesFaithfully w (decodeFamily0 w) := by
  unfold decodeFamily0
  split
  next hw => exact decodesFaithfully_ok (BitVec.eq_of_toNat_eq hw.symm)
  next hw => exact decodesFaithfully_ok (BitVec.eq_of_toNat_eq hw.symm)
  next hE0 hEE => exact decodesFaithfully_error (.inl ⟨hop, fun h => hE0 (h ▸ rfl), fun h => hEE (h ▸ rfl)⟩)

/-- Families 0x5 and 0x9 alike: `i` is the instruction of the family, and another last digit than 0 is illegal. -/
theorem decodesFaithfully_decodeFixedZero {i : Instr} (hi : (nOf w).toNat = 0 → encode i = w)
    (hillegal : nOf w ≠ 0 → IllegalByFields w) : DecodesFaithfully w (decodeFixedZero i w) := by
  unfold decodeFixedZero
  split
  next hn => exact decodesFaithfully_ok (hi hn)
  next hn => exact decodesFaithfully_error (hillegal fun h => hn (h ▸ rfl))

theorem decodesFaithfully_decodeFamily8 (hop : opOf w = 0x8) : DecodesFaithfully w (decodeFamily8 w) := by
  unfold decodeFamily8
  split
  case h_10 =>
    refine decodesFaithfully_error (.inr (.inr (.inl ⟨hop, ?_⟩)))
    have := (nOf w).isLt
    simp only [imp_false, List.mem_cons, List.not_mem_nil, or_false] at *
    omega
  all_goals
    rename_i hn
    exact decodesFaithfully_ok (packXYN_of_op_n hop hn)

theorem decodesFaithfully_decodeFamilyE (hop : opOf w = 0xE) : DecodesFaithfully w (decodeFamilyE w) := by
  unfold decodeFamilyE
  split
  case h_3 =>
    refine decodesFaithfully_error (.inr (.inr (.inr (.inr (.inl ⟨hop, ?_⟩)))))
    simp_all
  all_goals
    rename_i hkk
    exact decodesFaithfully_ok (packXK_of_op_kk hop hkk)

theorem decodesFaithfully_decodeFamilyF (hop : opOf w = 0xF) : DecodesFaithfully w (decodeFamilyF w) := by
  unfold decodeFamilyF
  split
  case h_10 =>
    refine decodesFaithfully_error (.inr (.inr (.inr (.inr (.inr ⟨hop, ?_⟩)))))
    simp_all
  all_goals
    rename_i hkk
    exact decodesFaithfully_ok (packXK_of_op_kk hop hkk)

end

/-- Every word is answered faithfully, by its family and then within the family (R73). -/
theorem decodesFaithfully_decodeWord (w : Word) : DecodesFaithfully w (decodeWord w) := by
  unfold decodeWord
  split
  case h_1 hop => exact decodesFaithfully_decodeFamily0 (BitVec.eq_of_toNat_eq hop)
  case h_2 hop | h_3 hop | h_11 hop | h_12 hop =>
    exact decodesFaithfully_ok (packA_of_op (BitVec.eq_of_toNat_eq hop))
  case h_4 hop | h_5 hop | h_7 hop | h_8 hop | h_13 hop =>
    exact decodesFaithfully_ok (packXK_of_op (BitVec.eq_of_toNat_eq hop))
  case h_6 hop =>
    have hop : opOf w = 0x5 := BitVec.eq_of_toNat_eq hop
    exact decodesFaithfully_decodeFixedZero (fun hn => packXYN_of_op_n hop hn) fun hn => .inr (.inl ⟨hop, hn⟩)
  case h_9 hop => exact decodesFaithfully_decodeFamily8 (BitVec.eq_of_toNat_eq hop)
  case h_10 hop =>
    have hop : opOf w = 0x9 := BitVec.eq_of_toNat_eq hop
    exact decodesFaithfully_decodeFixedZero (fun hn => packXYN_of_op_n hop hn)
      fun hn => .inr (.inr (.inr (.inl ⟨hop, hn⟩)))
  case h_14 hop => exact decodesFaithfully_ok (packXYN_of_op (BitVec.eq_of_toNat_eq hop))
  case h_15 hop => exact decodesFaithfully_decodeFamilyE (BitVec.eq_of_toNat_eq hop)
  case h_16 =>
    have hop : (opOf w).toNat = 15 := by
      have := (opOf w).isLt
      simp only [imp_false] at *
      omega
    exact decodesFaithfully_decodeFamilyF (BitVec.eq_of_toNat_eq hop)

/-- A word that decodes is the word of its instruction. -/
theorem encode_of_decodeWord {w : Word} {i : Instr} (h : decodeWord w = .ok i) : encode i = w := by
  obtain ⟨j, hj, hw⟩ | ⟨he, -⟩ := decodesFaithfully_decodeWord w
  · cases hj.symm.trans h; exact hw
  · cases he.symm.trans h

/-- Settles O3, from the decoder's faithful answer. -/
theorem encodeOfDecode : Obligations.EncodeOfDecode := fun _ _ => encode_of_decodeWord

/-! ## The rows of the opcode map (R76) -/

open Laws.EncodesRow in
/-- The encoder writes words of the instruction's row, each constructor by its lemma of the architect's. -/
theorem encodesRow : (i : Instr) → Statement i
  | .cls => cls | .ret => ret | .jp a => jp a | .call a => call a
  | .seByte x kk => seByte x kk | .sneByte x kk => sneByte x kk | .seReg x y => seReg x y
  | .ldByte x kk => ldByte x kk | .addByte x kk => addByte x kk
  | .ldReg x y => ldReg x y | .orReg x y => orReg x y | .andReg x y => andReg x y | .xorReg x y => xorReg x y
  | .addReg x y => addReg x y | .subReg x y => subReg x y | .shr x y => shr x y | .subnReg x y => subnReg x y
  | .shl x y => shl x y | .sneReg x y => sneReg x y | .ldI a => ldI a | .jpV0 a => jpV0 a
  | .rnd x kk => rnd x kk | .drw x y n => drw x y n | .skp x => skp x | .sknp x => sknp x
  | .ldVxDt x => ldVxDt x | .ldVxK x => ldVxK x | .ldDtVx x => ldDtVx x | .ldStVx x => ldStVx x
  | .addI x => addI x | .ldF x => ldF x | .ldB x => ldB x | .ldMemVx x => ldMemVx x | .ldVxMem x => ldVxMem x

/-- A word that decodes matches the row of its instruction. -/
theorem matches_row_of_decodeWord {w : Word} {i : Instr} (h : decodeWord w = .ok i) :
    ∃ r, opcodeRows[i.rowIndex]? = some r ∧ w &&& r.mask = r.pattern := by
  obtain ⟨r, hr, hm⟩ := encodesRow i rfl
  rw [encode_of_decodeWord h] at hm
  exact ⟨r, hr, eq_of_beq hm⟩

theorem opOf_and (v w : Word) : opOf (v &&& w) = opOf v &&& opOf w := BitVec.extractLsb'_and
theorem nOf_and (v w : Word) : nOf (v &&& w) = nOf v &&& nOf w := BitVec.extractLsb'_and
theorem kkOf_and (v w : Word) : kkOf (v &&& w) = kkOf v &&& kkOf w := BitVec.extractLsb'_and

/-- Every mask keeps the family, and the rest of the word on which the family is resolved (R73, R74). -/
theorem opcodeRows_mask : ∀ r ∈ opcodeRows,
    opOf r.mask = 0xF ∧ (opOf r.pattern = 0x0 → r.mask = 0xFFFF) ∧
    (opOf r.pattern ∈ [0x5, 0x8, 0x9] → nOf r.mask = 0xF) ∧
    (opOf r.pattern ∈ [0xE, 0xF] → kkOf r.mask = 0xFF) := by decide

/-- The pattern of a row is itself a word of the row. -/
theorem opcodeRows_pattern_legal : ∀ r ∈ opcodeRows, ¬ IllegalByFields r.pattern := by
  unfold IllegalByFields; decide

/-- A word of a row is not illegal: in the fields that decide it, it is as the row's pattern. -/
theorem not_illegalByFields_of_matches {w : Word} {r : OpcodeRow} (hr : r ∈ opcodeRows)
    (hm : w &&& r.mask = r.pattern) : ¬ IllegalByFields w := by
  intro hw
  apply opcodeRows_pattern_legal r hr
  obtain ⟨hmask, hword, h4, h8⟩ := opcodeRows_mask r hr
  have hop : opOf r.pattern = opOf w := by
    rw [← hm, opOf_and, hmask]; exact BitVec.and_allOnes
  have hn (h : opOf w ∈ [0x5, 0x8, 0x9]) : nOf r.pattern = nOf w := by
    rw [← hm, nOf_and, h4 (hop ▸ h)]; exact BitVec.and_allOnes
  have hkk (h : opOf w ∈ [0xE, 0xF]) : kkOf r.pattern = kkOf w := by
    rw [← hm, kkOf_and, h8 (hop ▸ h)]; exact BitVec.and_allOnes
  obtain ⟨h, hne⟩ | ⟨h, hbad⟩ | ⟨h, hbad⟩ | ⟨h, hbad⟩ | ⟨h, hbad⟩ | ⟨h, hbad⟩ := hw
  · have hpattern : r.pattern = w := by
      rw [← hm, hword (hop.trans h)]; exact BitVec.and_allOnes
    exact .inl (hpattern ▸ ⟨h, hne⟩)
  · exact .inr (.inl ⟨hop.trans h, hn (by simp [h]) ▸ hbad⟩)
  · exact .inr (.inr (.inl ⟨hop.trans h, hn (by simp [h]) ▸ hbad⟩))
  · exact .inr (.inr (.inr (.inl ⟨hop.trans h, hn (by simp [h]) ▸ hbad⟩)))
  · exact .inr (.inr (.inr (.inr (.inl ⟨hop.trans h, hkk (by simp [h]) ▸ hbad⟩))))
  · exact .inr (.inr (.inr (.inr (.inr ⟨hop.trans h, hkk (by simp [h]) ▸ hbad⟩))))

/-- Two rows whose patterns agree in the bits both masks keep are one row. -/
theorem opcodeRows_separate : ∀ j k : Fin opcodeRows.length,
    opcodeRows[j].pattern &&& opcodeRows[k].mask = opcodeRows[k].pattern &&& opcodeRows[j].mask → j = k := by decide

/-- No word matches two rows. -/
theorem row_unique_of_matches {w : Word} {j k : Nat} {r q : OpcodeRow} (hr : opcodeRows[j]? = some r)
    (hq : opcodeRows[k]? = some q) (hmr : w &&& r.mask = r.pattern) (hmq : w &&& q.mask = q.pattern) : j = k := by
  obtain ⟨hj, rfl⟩ := List.getElem?_eq_some_iff.1 hr
  obtain ⟨hk, rfl⟩ := List.getElem?_eq_some_iff.1 hq
  refine congrArg Fin.val (opcodeRows_separate ⟨j, hj⟩ ⟨k, hk⟩ ?_)
  calc opcodeRows[j].pattern &&& opcodeRows[k].mask
      = w &&& opcodeRows[j].mask &&& opcodeRows[k].mask := by rw [hmr]
    _ = w &&& opcodeRows[k].mask &&& opcodeRows[j].mask := by
        rw [BitVec.and_assoc, BitVec.and_comm opcodeRows[j].mask, BitVec.and_assoc]
    _ = opcodeRows[k].pattern &&& opcodeRows[j].mask := by rw [hmq]

/-- A word decodes or is illegal by its fields, and never both. -/
theorem decodeWord_error_iff (w : Word) : decodeWord w = .error (.unsupportedOpcode w) ↔ IllegalByFields w := by
  obtain ⟨i, hi, -⟩ | ⟨he, hw⟩ := decodesFaithfully_decodeWord w
  · obtain ⟨r, hr, hm⟩ := matches_row_of_decodeWord hi
    have hlegal := not_illegalByFields_of_matches (List.mem_of_getElem? hr) hm
    simp [hi, hlegal]
  · exact ⟨fun _ => hw, fun _ => he⟩

/-- A word that matches a row decodes to an instruction of that row. -/
theorem decodeWord_of_matches_row {w : Word} {j : Nat} {r : OpcodeRow} (hr : opcodeRows[j]? = some r)
    (hm : w &&& r.mask = r.pattern) : ∃ i, decodeWord w = .ok i ∧ i.rowIndex = j := by
  obtain ⟨i, hi, -⟩ | ⟨-, hw⟩ := decodesFaithfully_decodeWord w
  · obtain ⟨q, hq, hmq⟩ := matches_row_of_decodeWord hi
    exact ⟨i, hi, row_unique_of_matches hq hr hmq hm⟩
  · exact absurd hw (not_illegalByFields_of_matches (List.mem_of_getElem? hr) hm)

/-- A word that matches no row is unsupported. -/
theorem decodeWord_of_matches_none {w : Word} (h : ∀ r ∈ opcodeRows, w &&& r.mask ≠ r.pattern) :
    decodeWord w = .error (.unsupportedOpcode w) := by
  obtain ⟨i, hi, -⟩ | ⟨he, -⟩ := decodesFaithfully_decodeWord w
  · obtain ⟨r, hr, hm⟩ := matches_row_of_decodeWord hi
    exact absurd hm (h r (List.mem_of_getElem? hr))
  · exact he

/-- Settles O4: a word decodes to the instruction whose row it matches, and it can match only one. -/
theorem decoderFollowsTable : Obligations.DecoderFollowsTable :=
  ⟨fun _ _ => matches_row_of_decodeWord, fun _ _ _ => decodeWord_of_matches_row, fun _ => decodeWord_of_matches_none,
    fun _ _ _ _ _ => row_unique_of_matches⟩

/-- Settles O1: the words stand in R76's patterns, and the decoder evaluates each. -/
theorem referenceWordsDecode : Obligations.ReferenceWordsDecode := by
  unfold Obligations.ReferenceWordsDecode
  decide

end Sys2Proof

namespace Sys2Proof.Machine

/-! ## A step that fetches an illegal word -/

/-- A step whose decode phase rejects the word fetched (R208, R213). -/
theorem step_of_unsupported {s : State} {w : Word} (hw : decodeWord w = .error (.unsupportedOpcode w))
    (hpc : s.pc.toNat ≤ 4094) (hword : wordNumberAt s = w.toNat) : step s = .fault (.unsupportedOpcode w s.pc) := by
  have hfetch : fetch s = .ok w := by
    rw [fetch_inside hpc, ← BitVec.eq_of_toNat_eq ((toNat_wordOfBytes _ _).trans hword)]
  simp only [step, fetchInstr, hfetch, hw, raise_eq]

/-- Settles O5: R77's table is what the decoder rejects, and a step decodes the word it fetched. -/
theorem illegalWordsFault : Obligations.IllegalWordsFault :=
  fun w => ⟨decodeWord_error_iff w, fun hw _ => step_of_unsupported hw⟩

/-! ## No refusal (R80, R201) -/

/-- The outcome is a next state or a fault. -/
def NotRefused (r : Result) : Prop := ∀ q, r ≠ .refused q

theorem notRefused_next (s : State) : NotRefused (.next s) := by
  rintro q ⟨⟩

theorem notRefused_raise (f : Fault) : NotRefused (raise f) := by
  rintro q ⟨⟩

theorem notRefused_withDataRange {base count : Nat} {k : Result} (hk : NotRefused k) :
    NotRefused (withDataRange base count k) := by
  unfold withDataRange
  split
  · exact notRefused_raise _
  · exact hk

theorem notRefused_withKey {x : Reg} {k : Bool → Result} (hk : ∀ b, NotRefused (k b)) :
    NotRefused (withKey x s k) := by
  unfold withKey
  split
  · exact notRefused_raise _
  · exact hk _

theorem notRefused_execRet (s : State) : NotRefused (execRet s) := by
  unfold execRet
  split
  · exact notRefused_raise _
  · exact notRefused_next _

theorem notRefused_execCall (addr : Addr) (s : State) : NotRefused (execCall addr s) := by
  unfold execCall
  split
  · exact notRefused_next _
  · exact notRefused_raise _

theorem notRefused_execLdVxK (x : Reg) (s : State) : NotRefused (execLdVxK x s) := by
  unfold execLdVxK
  split <;> exact notRefused_next _

/-- Every instruction has a meaning: it answers with a next state or a fault (R80). -/
theorem notRefused_exec (i : Instr) (s : State) : NotRefused (exec i s) := by
  cases i with
  | ret => exact notRefused_execRet s
  | call addr => exact notRefused_execCall addr s
  | ldVxK x => exact notRefused_execLdVxK x s
  | skp | sknp => exact notRefused_withKey fun _ => notRefused_next _
  | drw | ldB | ldVxMem => exact notRefused_withDataRange (notRefused_next _)
  | ldMemVx => exact notRefused_raise _
  | cls | jp | seByte | sneByte | seReg | ldByte | addByte | ldReg | orReg | andReg | xorReg | addReg | subReg | shr
  | subnReg | shl | sneReg | ldI | jpV0 | rnd | ldVxDt | ldDtVx | ldStVx | addI | ldF => exact notRefused_next _

theorem notRefused_finish {r : Result} (h : NotRefused r) : NotRefused (finish r) := by
  cases r with
  | next t => exact notRefused_next _
  | fault f => exact notRefused_raise f
  | refused q => exact absurd rfl (h q)

theorem notRefused_step (s : State) : NotRefused (step s) := by
  unfold step
  split
  · exact notRefused_raise _
  · exact notRefused_finish (notRefused_exec _ s)

/-- Settles O39: every arm of `exec` answers with a next state or a fault, and a step adds only faults. -/
theorem nothingIsRefused : Obligations.NothingIsRefused := ⟨notRefused_exec, notRefused_step⟩

end Sys2Proof.Machine

/-! # Control transfer (R100 to R104)

Each of the four instructions answers with one named update of the state, or with the stack's fault; the statements read
PC, SP and the frame off that update. -/

namespace Sys2Proof.Machine

/-- The word of an instruction decodes to it. -/
theorem decodeWord_of_encode {w : Word} {i : Instr} (h : encode i = w) : decodeWord w = .ok i :=
  h ▸ decodeWord_encode i

section
variable {s t : State}

/-! ## Jumps -/

theorem exec_jp (a : Addr) (s : State) : exec (.jp a) s = .next (s.setPc (zextAddr a)) := jumpTo_eq _ s

theorem exec_jpV0 (a : Addr) (s : State) : exec (.jpV0 a) s = .next (s.setPc (offsetTarget s a)) := jumpTo_eq _ s

/-- Setting PC changes PC alone. -/
theorem unchangedBut_setPc (s : State) (a : Word) : UnchangedBut (fun p => p = .pc) s (s.setPc a) :=
  (UnchangedBut.refl (fun p => p = .pc) s).setPc rfl a

/-- A step from a PC past the last fetch address faults with that PC (R205). -/
theorem step_outside {n : Nat} (hpc : s.pc.toNat = n) (h : n > 4094) : step s = .fault (.outOfBounds .code n) := by
  subst hpc
  simp only [step, fetchInstr, fetch_outside h, raise_eq]

/-! ## The return stack -/

/-- The entry a pop reads, by its index (R27). -/
theorem State.topEntry_of_sp {k : Fin 16} (h : s.sp.val = k.val + 1) : s.topEntry = s.stack[k] := by
  simp only [State.topEntry, h, Nat.add_sub_cancel, Fin.getElem_fin]

theorem State.topEntry_setPc (s : State) (a : Word) : (s.setPc a).topEntry = s.topEntry := rfl

/-- A pop reads what was pushed (R27). -/
theorem State.topEntry_push (s : State) (a : Word) (h : s.sp.val < 16) : (s.push a h).topEntry = a :=
  (State.topEntry_of_sp (k := ⟨s.sp.val, h⟩) rfl).trans (Vector.getElem_set_self h)

/-- A return with an entry in use (R100). -/
theorem exec_ret_of_entry (h : s.sp.val ≠ 0) : exec .ret s = .next (s.pop.setPc s.topEntry) := if_neg h

/-- A call that completes had a free entry (R102). -/
theorem exec_call_next {a : Addr} (h : exec (.call a) s = .next t) :
    ∃ hfree : s.sp.val < 16, t = (s.push (s.pc + 2) hfree).setPc (zextAddr a) := by
  by_cases hfree : s.sp.val < 16
  · rw [exec_call_of_lt a hfree] at h
    exact ⟨hfree, (Host.Outcome.next.inj h).symm⟩
  · rw [exec_call_of_full a hfree] at h
    cases h

/-- A part that has its value back leaves the frame. -/
theorem UnchangedBut.of_value_eq {W : Part → Prop} {q : Part} (h : UnchangedBut (fun p => p = q ∨ W p) s t)
    (hq : q.value t = q.value s) : UnchangedBut W s t := fun p hp => by
  by_cases hpq : p = q
  · rw [hpq, hq]
  · exact h p (not_or_intro hpq hp)

end

/-- Settles O6: a pop, then PC set to the entry it read. -/
theorem returnPops : Obligations.ReturnPops := by
  refine ⟨decodeWord_encode .ret, fun s => ⟨exec_ret_of_empty, fun k hk => ?_⟩⟩
  have hsp : s.pop.sp.val = k.val := Nat.sub_eq_of_eq_add hk
  exact ⟨_, exec_ret_of_entry (by omega), hsp, State.topEntry_of_sp hk,
    ((UnchangedBut.refl _ s).pop (.inl rfl)).setPc (.inr rfl) _⟩

/-- Settles O7: PC set to the address, from which 0xFFF leaves no second byte to fetch. -/
theorem jumpSetsPc : Obligations.JumpSetsPc := by
  refine ⟨fun w hop => decodeWord_of_encode (packA_of_op hop), fun a s => ?_⟩
  refine ⟨_, exec_jp a s, toNat_zextAddr a, unchangedBut_setPc s _, ?_⟩
  rintro rfl
  exact step_outside (toNat_zextAddr 0xFFF) (by decide)

/-- Settles O8: a push of PC + 2 at the index SP, then PC set to the address. -/
theorem callPushesReturnAddress : Obligations.CallPushesReturnAddress := by
  refine ⟨fun w hop => decodeWord_of_encode (packA_of_op hop), fun a s => ⟨fun hfull => ?_, fun k hk => ?_⟩⟩
  · exact exec_call_of_full a (by omega)
  · have hfree : s.sp.val < 16 := hk ▸ k.isLt
    obtain rfl : k = ⟨s.sp.val, hfree⟩ := Fin.ext hk.symm
    have hentry : (s.push (s.pc + 2) hfree).stack[s.sp.val] = s.pc + 2 := Vector.getElem_set_self hfree
    have hnoWrap (hpc : s.pc.toNat ≤ 4094) : (s.pc + 2).toNat = s.pc.toNat + 2 := by bv_omega
    exact ⟨_, exec_call_of_lt a hfree, hentry, fun hpc => (congrArg BitVec.toNat hentry).trans (hnoWrap hpc), rfl,
      toNat_zextAddr a,
      ((UnchangedBut.refl _ s).push hfree (.inr (.inl rfl)) (.inl rfl) _).setPc (.inr (.inr rfl)) _⟩

/-- Settles O9: PC set to the sum, which 16 bits hold. -/
theorem offsetJumpAddsV0 : Obligations.OffsetJumpAddsV0 := by
  refine ⟨fun w hop => decodeWord_of_encode (packA_of_op hop), fun a s => ?_⟩
  exact ⟨_, exec_jpV0 a s, toNat_offsetTarget s a, unchangedBut_setPc s _, step_outside (toNat_offsetTarget s a)⟩

/-- Settles O10: the return pops what the call pushed, which puts SP back. -/
theorem callThenReturnResumes : Obligations.CallThenReturnResumes := by
  intro a s t h
  obtain ⟨hfree, rfl⟩ := exec_call_next h
  have hpc : ((s.push (s.pc + 2) hfree).setPc (zextAddr a)).topEntry = s.pc + 2 := by
    rw [State.topEntry_setPc, State.topEntry_push]
  have hcall : UnchangedBut (fun p => p = .stackPointer ∨ p = .stackEntry ⟨s.sp.val, hfree⟩ ∨ p = .pc) s
      ((s.push (s.pc + 2) hfree).setPc (zextAddr a)) :=
    ((UnchangedBut.refl _ s).push hfree (.inl rfl) (.inr (.inl rfl)) _).setPc (.inr (.inr rfl)) _
  have hreturn := (hcall.pop (.inl rfl)).setPc (.inr (.inr rfl))
  exact ⟨_, ⟨s.sp.val, hfree⟩, exec_ret_of_entry (Nat.succ_ne_zero _), rfl, hpc, rfl, (hreturn _).of_value_eq rfl⟩

end Sys2Proof.Machine

/-! # Register skips (R110 to R113)

The four instructions answer alike: PC set by a condition, and nothing else. What tells them apart is the condition, and
for the register forms a last digit that must be 0. -/

namespace Sys2Proof.Machine

/-- A skip on a condition moves PC by 4 if it holds and by 2 if not, and changes PC alone (R24). -/
theorem skipIf_pc_and_frame {c : Bool} {p : Prop} [Decidable p] (hc : c = true ↔ p) (s : State) :
    ∃ t, skipIf c s = .next t ∧ t.pc = (if p then s.pc + 4 else s.pc + 2) ∧ UnchangedBut (fun q => q = .pc) s t :=
  ⟨_, skipIf_eq c s, if_congr hc rfl rfl, unchangedBut_setPc s _⟩

section
variable {w : Word}

/-- Family 0x5 with the last digit 0 (R112). -/
theorem decodeWord_seReg (hop : opOf w = 0x5) (hn : nOf w = 0) : decodeWord w = .ok (.seReg (xOf w) (yOf w)) :=
  decodeWord_of_encode (packXYN_of_op_n hop (congrArg BitVec.toNat hn))

/-- Family 0x9 with the last digit 0 (R113). -/
theorem decodeWord_sneReg (hop : opOf w = 0x9) (hn : nOf w = 0) : decodeWord w = .ok (.sneReg (xOf w) (yOf w)) :=
  decodeWord_of_encode (packXYN_of_op_n hop (congrArg BitVec.toNat hn))

/-- Families 0x5 and 0x9 hold no word with another last digit (R74, R77). -/
theorem decodeWord_of_nonzero_digit (hop : opOf w = 0x5 ∨ opOf w = 0x9) (hn : nOf w ≠ 0) :
    decodeWord w = .error (.unsupportedOpcode w) := by
  refine (decodeWord_error_iff w).2 ?_
  obtain hop | hop := hop
  · exact .inr (.inl ⟨hop, hn⟩)
  · exact .inr (.inr (.inr (.inl ⟨hop, hn⟩)))

end

/-- Settles O12: the two skips on Vx and the byte. -/
theorem skipOnByte : Obligations.SkipOnByte := by
  refine ⟨fun w hop => ?_, fun w hop => ?_, fun x kk s => ⟨?_, ?_⟩⟩
  · exact decodeWord_of_encode (packXK_of_op hop)
  · exact decodeWord_of_encode (packXK_of_op hop)
  · exact skipIf_pc_and_frame beq_iff_eq s
  · exact skipIf_pc_and_frame bne_iff_ne s

/-- Settles O13: the two skips on Vx and Vy, the last digit deciding whether the word is one. -/
theorem skipOnRegisters : Obligations.SkipOnRegisters := by
  refine ⟨fun w hop => ⟨?_, ?_⟩, fun w hop => ⟨?_, ?_⟩, fun x y s => ⟨?_, ?_⟩⟩
  · exact decodeWord_seReg hop
  · exact decodeWord_of_nonzero_digit (.inl hop)
  · exact decodeWord_sneReg hop
  · exact decodeWord_of_nonzero_digit (.inr hop)
  · exact skipIf_pc_and_frame beq_iff_eq s
  · exact skipIf_pc_and_frame bne_iff_ne s

end Sys2Proof.Machine

/-! # Register load, arithmetic and logic (R120 to R133)

There are two shapes of instruction. The first writes one register and goes on. The second writes VF and then Vx, in that
order (R127), so that an operand which is VF is read as the flag: `sequential_flagThenResult_operands` says that once, in
the four cases of `x` and `y`, for any operation on two bytes that is known on numbers. -/

namespace Sys2Proof.Machine

/-- A word whose operation and last digit are an instruction's decodes to it, with the operands its fields hold. -/
theorem decodeWord_of_op_digit {w : Word} {op n : Nibble} {i : Instr} (hop : opOf w = op) (hn : nOf w = n)
    (hi : encode i = packXYN op (xOf w) (yOf w) n) : decodeWord w = .ok i :=
  decodeWord_of_encode (hi.trans (packXYN_of_op_n hop (congrArg BitVec.toNat hn)))

/-! ## One register written -/

section
variable (s : State) (x : Reg) (b : Byte)

/-- A register written by a sequential instruction (R24). -/
theorem sequential_setReg :
    ∃ t, sequential (s.setReg x b) = .next t ∧ t.reg x = b ∧ t.pc = s.pc + 2 ∧
      UnchangedBut (fun p => p = .reg x ∨ p = .pc) s t :=
  ⟨_, sequential_eq _, State.reg_setReg_self s x b, rfl,
    ((UnchangedBut.refl _ s).setReg (.inl rfl) b).setPc (.inr rfl) _⟩

end

/-- Settles O14: one register written, with the byte or with the sum. -/
theorem loadByteAndAddByte : Obligations.LoadByteAndAddByte := by
  refine ⟨fun w hop => ?_, fun w hop => ?_, fun x kk s => ⟨?_, ?_⟩⟩
  · exact decodeWord_of_encode (packXK_of_op hop)
  · exact decodeWord_of_encode (packXK_of_op hop)
  · exact sequential_setReg s x kk
  · obtain ⟨t, ht, hreg, hpc, hframe⟩ := sequential_setReg s x (s.reg x + kk)
    exact ⟨t, ht, hreg ▸ BitVec.toNat_add _ _, hpc, hframe⟩

/-- Settles O15: one register written, with an operand or with a bitwise operation on both. -/
theorem copyAndLogic : Obligations.CopyAndLogic := by
  refine ⟨fun w hop => ⟨fun hn => ?_, fun hn => ?_, fun hn => ?_, fun hn => ?_⟩, fun x y s => ⟨?_, ?_, ?_, ?_⟩⟩
  · exact decodeWord_of_op_digit hop hn rfl
  · exact decodeWord_of_op_digit hop hn rfl
  · exact decodeWord_of_op_digit hop hn rfl
  · exact decodeWord_of_op_digit hop hn rfl
  · exact sequential_setReg s x (s.reg y)
  · obtain ⟨t, ht, hreg, hpc, hframe⟩ := sequential_setReg s x (s.reg x ||| s.reg y)
    exact ⟨t, ht, fun _ => hreg ▸ BitVec.getLsbD_or, hpc, hframe⟩
  · obtain ⟨t, ht, hreg, hpc, hframe⟩ := sequential_setReg s x (s.reg x &&& s.reg y)
    exact ⟨t, ht, fun _ => hreg ▸ BitVec.getLsbD_and, hpc, hframe⟩
  · obtain ⟨t, ht, hreg, hpc, hframe⟩ := sequential_setReg s x (s.reg x ^^^ s.reg y)
    exact ⟨t, ht, fun _ => hreg ▸ BitVec.getLsbD_xor, hpc, hframe⟩

/-! ## VF written, then the result -/

section
variable (flag : State → Byte) (x : Reg) (s : State)

/-- VF holds the flag unless `x` is 15, and Vx the result from the registers as the flag left them (R127). -/
theorem sequential_flagThenResult (result : State → Byte) :
    ∃ t, sequential (flagThenResult flag x result s) = .next t ∧ t.pc = s.pc + 2 ∧
      UnchangedBut (fun p => p = .reg x ∨ p = .reg 15 ∨ p = .pc) s t ∧
      t.reg x = result (s.setReg vf (flag s)) ∧ (x ≠ 15 → t.reg 15 = flag s) :=
  ⟨_, sequential_eq _, rfl,
    ((UnchangedBut.refl _ s).flagThenResult (.inr (.inl rfl)) (.inl rfl) flag result).setPc (.inr (.inr rfl)) _,
    reg_flagThenResult_self flag x result s, reg_flagThenResult_vf flag result s⟩

/-- An operand other than VF is read as it was. -/
theorem reg_setReg_vf_of_ne {r : Reg} (hr : r ≠ 15) (b : Byte) : (s.setReg vf b).reg r = s.reg r :=
  State.reg_setReg_of_ne s b hr.symm

/-- An operand that is VF is read as the flag. -/
theorem reg_setReg_vf_self (b : Byte) : (s.setReg vf b).reg 15 = b := State.reg_setReg_self s vf b

/-- An operation on Vx and Vy after the flag, on numbers: an operand that is VF is the flag (R127, D3). -/
theorem sequential_flagThenResult_operands (y : Reg) {f : Byte → Byte → Byte} {g : Nat → Nat → Nat} {c : Nat}
    (hf : ∀ p q, (f p q).toNat = g p.toNat q.toNat) (hc : (flag s).toNat = c) :
    ∃ t, sequential (flagThenResult flag x (fun u => f (u.reg x) (u.reg y)) s) = .next t ∧ t.pc = s.pc + 2 ∧
      UnchangedBut (fun p => p = .reg x ∨ p = .reg 15 ∨ p = .pc) s t ∧
      (x ≠ 15 → y ≠ 15 → (t.reg x).toNat = g (s.reg x).toNat (s.reg y).toNat ∧ (t.reg 15).toNat = c) ∧
      (x ≠ 15 → y = 15 → (t.reg x).toNat = g (s.reg x).toNat c ∧ (t.reg 15).toNat = c) ∧
      (x = 15 → y ≠ 15 → (t.reg 15).toNat = g c (s.reg y).toNat) ∧
      (x = 15 → y = 15 → (t.reg 15).toNat = g c c) := by
  subst hc
  obtain ⟨t, ht, hpc, hframe, hresult, hflag⟩ := sequential_flagThenResult flag x s (fun u => f (u.reg x) (u.reg y))
  have hflag' (hx : x ≠ 15) : (t.reg 15).toNat = (flag s).toNat := congrArg BitVec.toNat (hflag hx)
  refine ⟨t, ht, hpc, hframe, fun hx hy => ⟨?_, hflag' hx⟩, fun hx hy => ⟨?_, hflag' hx⟩, ?_, ?_⟩
  · rw [hresult, reg_setReg_vf_of_ne s hx, reg_setReg_vf_of_ne s hy, hf]
  · rw [hresult, reg_setReg_vf_of_ne s hx, hy, reg_setReg_vf_self, hf]
  · rintro rfl hy
    rw [hresult, reg_setReg_vf_self, reg_setReg_vf_of_ne s hy, hf]
  · rintro rfl rfl
    rw [hresult, reg_setReg_vf_self, hf]

end

/-- Settles O16: the sum after the carry; with both operands VF the carry is doubled. -/
theorem addSetsCarry : Obligations.AddSetsCarry := by
  refine ⟨fun w hop hn => decodeWord_of_op_digit hop hn rfl, ?_⟩
  rintro x y s _ _ c rfl rfl hc
  obtain ⟨t, ht, hpc, hframe, hneither, hy, hx, hboth⟩ := sequential_flagThenResult_operands
    (fun u => carryFlag (u.reg x) (u.reg y)) x s y (f := (· + ·)) (g := fun m n => (m + n) % 256)
    BitVec.toNat_add ((toNat_carryFlag _ _).trans hc.symm)
  have hbit : c ≤ 1 := by rw [hc]; split <;> decide
  have hdouble : (c + c) % 256 = 2 * c := by omega
  exact ⟨t, ht, hpc, hframe, hneither, hy, hx, fun h15 h15' => (hboth h15 h15').trans hdouble⟩

/-! ## Differences -/

theorem toNat_byte_sub (a b : Byte) : (a - b).toNat = (a.toNat + 256 - b.toNat) % 256 := by bv_omega

/-- A number less itself, as the rules write a difference of bytes. -/
theorem sub_self_mod_256 (n : Nat) : (n + 256 - n) % 256 = 0 := by omega

/-- Settles O17: the difference after the comparison; with both operands VF it is the flag less itself. -/
theorem subtractSetsStrictFlag : Obligations.SubtractSetsStrictFlag := by
  refine ⟨fun w hop hn => decodeWord_of_op_digit hop hn rfl, ?_⟩
  rintro x y s _ _ c rfl rfl hc
  obtain ⟨t, ht, hpc, hframe, hneither, hy, hx, hboth⟩ := sequential_flagThenResult_operands
    (fun u => greaterFlag (u.reg x) (u.reg y)) x s y (f := (· - ·)) (g := fun m n => (m + 256 - n) % 256)
    toNat_byte_sub ((toNat_greaterFlag _ _).trans hc.symm)
  exact ⟨t, ht, hpc, hframe, hneither, hy, hx, fun h15 h15' => (hboth h15 h15').trans (sub_self_mod_256 c)⟩

/-- Settles O19: the difference of the operands the other way round, after their comparison the other way round. -/
theorem subtractReversed : Obligations.SubtractReversed := by
  refine ⟨fun w hop hn => decodeWord_of_op_digit hop hn rfl, ?_⟩
  rintro x y s _ _ c rfl rfl hc
  obtain ⟨t, ht, hpc, hframe, hneither, hy, hx, hboth⟩ := sequential_flagThenResult_operands
    (fun u => greaterFlag (u.reg y) (u.reg x)) x s y (f := fun p q => q - p) (g := fun m n => (n + 256 - m) % 256)
    (fun p q => toNat_byte_sub q p) ((toNat_greaterFlag _ _).trans hc.symm)
  exact ⟨t, ht, hpc, hframe, hneither, hy, hx, fun h15 h15' => (hboth h15 h15').trans (sub_self_mod_256 c)⟩

/-! ## Shifts -/

theorem toNat_byte_half (a : Byte) : (a >>> 1).toNat = a.toNat / 2 := BitVec.toNat_ushiftRight a 1

theorem toNat_byte_double (a : Byte) : (a <<< 1).toNat = 2 * a.toNat % 256 := by
  rw [BitVec.toNat_shiftLeft, Nat.shiftLeft_eq, Nat.mul_comm]

/-- Settles O18: half of Vx after its low bit; with Vx being VF, half of a bit. -/
theorem shiftRightByOne : Obligations.ShiftRightByOne := by
  refine ⟨fun w hop hn => decodeWord_of_op_digit hop hn rfl, fun x y s => ?_⟩
  obtain ⟨t, ht, hpc, hframe, hresult, hflag⟩ :=
    sequential_flagThenResult (fun u => lowBitFlag (u.reg x)) x s (fun u => u.reg x >>> 1)
  refine ⟨t, ht, hpc, hframe, fun hx => ?_, ?_⟩
  · rw [hresult, hflag hx, reg_setReg_vf_of_ne s hx]
    exact ⟨toNat_byte_half _, toNat_lowBitFlag _⟩
  · rintro rfl
    rw [hresult, reg_setReg_vf_self, toNat_byte_half, toNat_lowBitFlag]
    omega

/-- Settles O20: the double of Vx after its high bit; with Vx being VF, the double of a bit. -/
theorem shiftLeftByOne : Obligations.ShiftLeftByOne := by
  refine ⟨fun w hop hn => decodeWord_of_op_digit hop hn rfl, fun x y s => ?_⟩
  obtain ⟨t, ht, hpc, hframe, hresult, hflag⟩ :=
    sequential_flagThenResult (fun u => highBitFlag (u.reg x)) x s (fun u => u.reg x <<< 1)
  refine ⟨t, ht, hpc, hframe, fun hx => ?_, ?_⟩
  · rw [hresult, hflag hx, reg_setReg_vf_of_ne s hx]
    exact ⟨toNat_byte_double _, toNat_highBitFlag _⟩
  · rintro rfl
    rw [hresult, reg_setReg_vf_self, toNat_byte_double, toNat_highBitFlag]
    split <;> rfl

/-! ## The byte drawn -/

/-- The byte of this draw under the mask is written, and the next draw is another (R133). -/
theorem exec_rnd_next (x : Reg) (kk : Byte) (s : State) :
    ∃ t, exec (.rnd x kk) s = .next t ∧ t.reg x = Config.rnd s.draws &&& kk ∧ t.draws = s.draws + 1 ∧
      t.pc = s.pc + 2 ∧ UnchangedBut (fun p => p = .reg x ∨ p = .pc ∨ p = .draws) s t :=
  ⟨_, sequential_eq _, State.reg_setReg_self s x _, rfl, rfl,
    (((UnchangedBut.refl _ s).setReg (.inl rfl) _).countDraw (.inr (.inr rfl))).setPc (.inr (.inl rfl)) _⟩

/-- Settles O21: the mask bounds the byte drawn, whatever it is. -/
theorem randomUnderMask : Obligations.RandomUnderMask := by
  refine ⟨fun w hop => decodeWord_of_encode (packXK_of_op hop), fun x kk s => ?_⟩
  obtain ⟨t, ht, hreg, hdraws, hpc, hframe⟩ := exec_rnd_next x kk s
  refine ⟨t, ht, hreg, hdraws, ?_, ?_, ?_, hpc, hframe⟩
  · rw [hreg, BitVec.and_assoc, BitVec.and_not_self]
    exact BitVec.and_zero
  · rw [hreg, BitVec.toNat_and]
    exact Nat.and_le_right
  · rintro rfl
    exact hreg.trans BitVec.and_zero

end Sys2Proof.Machine

/-! # The index register and memory (R150 to R157)

Three instructions write I and go on. Two others access memory, each in a range checked whole by its last address: on
either side of the bound each has one equation, from which registers, bytes and frame are read. -/

namespace Sys2Proof.Machine

/-- A word whose operation and low byte are an instruction's decodes to it, with the register its field holds. -/
theorem decodeWord_of_op_kk {w : Word} {op : Nibble} {kk : Byte} {i : Instr} (hop : opOf w = op) (hkk : kkOf w = kk)
    (hi : encode i = packXK op (xOf w) kk) : decodeWord w = .ok i :=
  decodeWord_of_encode (hi.trans (packXK_of_op_kk hop (congrArg BitVec.toNat hkk)))

/-! ## I written -/

/-- I written by a sequential instruction (R24). -/
theorem sequential_setI (s : State) (a : Word) :
    ∃ t, sequential (s.setI a) = .next t ∧ t.i = a ∧ t.pc = s.pc + 2 ∧
      UnchangedBut (fun p => p = .index ∨ p = .pc) s t :=
  ⟨_, sequential_eq _, rfl, rfl, ((UnchangedBut.refl _ s).setI (.inl rfl) a).setPc (.inr rfl) _⟩

/-- Settles O22: I written, with the address or with the 12-bit sum. -/
theorem loadAndAddIndex : Obligations.LoadAndAddIndex := by
  refine ⟨fun w hop => ?_, fun w hop hkk => ?_, fun addr s => ?_, fun x s => ?_⟩
  · exact decodeWord_of_encode (packA_of_op hop)
  · exact decodeWord_of_op_kk hop hkk rfl
  · obtain ⟨t, ht, hindex, hpc, hframe⟩ := sequential_setI s (zextAddr addr)
    exact ⟨t, ht, hindex ▸ toNat_zextAddr addr, hpc, hframe⟩
  · obtain ⟨t, ht, hindex, hpc, hframe⟩ := sequential_setI s (indexSum s x)
    exact ⟨t, ht, hindex ▸ toNat_indexSum s x, hpc, hframe⟩

/-- Settles O23: I written with the address of the character, which the last origin and the last byte bound. -/
theorem fontCharacterAddress : Obligations.FontCharacterAddress := by
  refine ⟨fun w hop hkk => decodeWord_of_op_kk hop hkk rfl, fun x s => ?_⟩
  obtain ⟨t, ht, hindex, hpc, hframe⟩ := sequential_setI s (fontAddr s x)
  have haddr : t.i.toNat = fontOrigin + 5 * (s.reg x).toNat := hindex ▸ toNat_fontAddr s x
  have horigin := fontOrigin_le
  have hbyte := (s.reg x).isLt
  exact ⟨t, ht, haddr, by omega, hpc, hframe⟩

/-! ## A range of memory, by its last address -/

section
variable {s : State} {x : Reg}

/-- A range that ends in memory is accessed (R55). -/
theorem withDataRange_of_last_le {base last : Nat} (k : Result) (h : base + last ≤ 4095) :
    withDataRange base (last + 1) k = k :=
  withDataRange_inside k fun hpast => Nat.not_lt_of_le h hpast.2

/-- A range that ends past memory faults with its last address (R55, R206). -/
theorem withDataRange_of_last_gt {base last : Nat} (k : Result) (h : base + last > 4095) :
    withDataRange base (last + 1) k = .fault (.outOfBounds .data (base + last)) :=
  withDataRange_outside k ⟨Nat.succ_pos last, h⟩

/-! ## Decimal digits stored -/

theorem exec_ldB_of_le (h : s.i.toNat + 2 ≤ 4095) :
    exec (.ldB x) s =
      .next ((s.setMem (Memory.writeBytes s.mem s.i.toNat (decimalDigits (s.reg x)))).setPc (s.pc + 2)) :=
  withDataRange_of_last_le _ h

theorem exec_ldB_of_gt (h : s.i.toNat + 2 > 4095) : exec (.ldB x) s = .fault (.outOfBounds .data (s.i.toNat + 2)) :=
  withDataRange_of_last_gt _ h

/-- The digits leave every byte but the three from `a` on (R153). -/
theorem read_writeBytes_decimalDigits (m : Memory) (b : Byte) {a p : Nat} (h : p < a ∨ a + 3 ≤ p) :
    Memory.read (Memory.writeBytes m a (decimalDigits b)) p = Memory.read m p := by
  have hout : ¬ (a ≤ p ∧ p < a + (decimalDigits b).length) := fun ⟨hge, hlt⟩ =>
    h.elim (Nat.not_lt_of_le hge) (Nat.not_le_of_lt hlt)
  rw [Memory.read_writeBytes, if_neg hout]

/-! ## Registers loaded -/

theorem exec_ldVxMem_of_le (h : s.i.toNat + x.toNat ≤ 4095) :
    exec (.ldVxMem x) s = .next ((loadRegs s (List.range (x.toNat + 1))).setPc (s.pc + 2)) := by
  rw [← loadRegs_pc s (List.range (x.toNat + 1))]
  exact withDataRange_of_last_le _ h

theorem exec_ldVxMem_of_gt (h : s.i.toNat + x.toNat > 4095) :
    exec (.ldVxMem x) s = .fault (.outOfBounds .data (s.i.toNat + x.toNat)) :=
  withDataRange_of_last_gt _ h

/-! ## The store that always faults, and the step that fetches its word -/

theorem exec_ldMemVx : exec (.ldMemVx x) s = .fault (.unsupportedOpcode (encode (.ldMemVx x)) s.pc) := raise_eq _

/-- A fetch of a legal word gives its instruction (R53, R250). -/
theorem fetchInstr_of_word {w : Word} {i : Instr} (hw : decodeWord w = .ok i) (hpc : s.pc.toNat ≤ 4094)
    (hword : wordNumberAt s = w.toNat) : fetchInstr s = .ok i := by
  have hfetch : fetch s = .ok w := by
    rw [fetch_inside hpc, ← BitVec.eq_of_toNat_eq ((toNat_wordOfBytes _ _).trans hword)]
  simp only [fetchInstr, hfetch, hw]

end

/-! ## The three instructions on memory, from every state -/

/-- Settles O24: the digits written in a range that ends in memory, the fault in one that does not. -/
theorem storeDecimalDigits : Obligations.StoreDecimalDigits := by
  refine ⟨fun w hop hkk => decodeWord_of_op_kk hop hkk rfl, fun x s => ⟨exec_ldB_of_gt, fun hlast => ?_⟩⟩
  have ht := exec_ldB_of_le (x := x) hlast
  refine ⟨_, ht, exec_ldB_byteAt ht (k := 0) (by decide), exec_ldB_byteAt ht (k := 1) (by decide),
    exec_ldB_byteAt ht (k := 2) (by decide), rfl, UnchangedBut.setPc ?_ (.inr (.inr (.inr rfl))) _⟩
  refine (UnchangedBut.refl _ s).setMem fun a ha => read_writeBytes_decimalDigits s.mem (s.reg x) ?_
  simp only [Part.memory.injEq, reduceCtorEq, or_false, not_or] at ha
  omega

/-- Settles O25: the fault carries the word of the instruction, which is the word fetched. -/
theorem storeRegistersFaults : Obligations.StoreRegistersFaults := by
  intro w hop hkk
  have hencode : encode (.ldMemVx (xOf w)) = w := packXK_of_op_kk hop (congrArg BitVec.toNat hkk)
  have hdecode := decodeWord_of_encode hencode
  have hexec (s : State) : exec (.ldMemVx (xOf w)) s = .fault (.unsupportedOpcode w s.pc) := by
    rw [exec_ldMemVx, hencode]
  refine ⟨hdecode, hexec, fun s hpc hword => ?_⟩
  rw [step_of_fetchInstr (fetchInstr_of_word hdecode hpc hword), hexec, finish_fault]

/-- Settles O26: the registers loaded from a range that ends in memory, the fault in one that does not. -/
theorem loadRegistersFromMemory : Obligations.LoadRegistersFromMemory := by
  refine ⟨fun w hop hkk => decodeWord_of_op_kk hop hkk rfl, fun x s => ⟨exec_ldVxMem_of_gt, fun hlast => ?_⟩⟩
  have hcount : x.toNat + 1 ≤ 16 := x.isLt
  refine ⟨_, exec_ldVxMem_of_le hlast, fun r hr => ?_, rfl, ?_⟩
  · exact (reg_loadRegs s _ hcount r).trans (if_pos (Nat.lt_succ_of_le hr))
  · refine UnchangedBut.setPc ?_ (.inr rfl) _
    exact (UnchangedBut.refl _ s).loadRegs hcount fun r hr => .inl ⟨r, Nat.le_of_lt_succ hr, rfl⟩

end Sys2Proof.Machine

/-! # The display (R170 to R176)

What `Dxyn` draws is the sprite's cells plotted once each, so every cell under a bit that is 1 is toggled and every other
is kept; VF, written after the coordinates were read, is 1 exactly when one of those cells was lit. That PC moves on and
that REDRAW is set was said of all instructions above. -/

namespace Sys2Proof.Machine

/-- Settles O28: the screen cleared and REDRAW set, whatever they were. -/
theorem clearScreen : Obligations.ClearScreen := by
  refine ⟨decodeWord_encode .cls, fun s => ⟨_, sequential_eq _, fun _ => BitVec.getLsbD_zero, rfl, rfl, ?_⟩⟩
  refine UnchangedBut.setPc ?_ (.inr (.inr rfl)) _
  exact ((UnchangedBut.refl _ s).setFb fun c hc => absurd (.inl ⟨c, rfl⟩) hc).setRedraw (.inr (.inl rfl)) true

/-! ## The collision flag as a byte -/

theorem flagByte_eq_one_iff (b : Bool) : flagByte b = 1 ↔ b = true := by cases b <;> decide

theorem flagByte_eq_zero_iff (b : Bool) : flagByte b = 0 ↔ ¬ b = true := by cases b <;> decide

/-! ## The sprite of an instruction drawn on the screen -/

/-- The framebuffer and the collision flag after the sprite of `Dxyn` is drawn on the screen of `s` (R171). -/
def spriteDrawn (x y : Reg) (n : Nibble) (s : State) : FrameBuffer × Bool :=
  drawSprite (s.reg x).toNat (s.reg y).toNat (Memory.readBytes s.mem (effAddr s 0) n.toNat) s.fb

section
variable {x y : Reg} {n : Nibble} {s t : State} {c : Nat}

/-- A sprite has at most 15 rows, so that no two of its bits share a cell (R173). -/
theorem length_readBytes_nibble_le (m : Memory) (a : Nat) (n : Nibble) :
    (Memory.readBytes m a n.toNat).length ≤ 31 := by
  have := n.isLt
  rw [Memory.length_readBytes]
  omega

theorem spriteDrawn_cell_of_spriteCell (hc : SpriteCell s x y n c) :
    (spriteDrawn x y n s).1.getLsbD c = !s.fb.getLsbD c := by
  rw [spriteDrawn, drawSprite_cell _ _ _ _ (length_readBytes_nibble_le _ _ n),
    decide_eq_true ((mem_spriteTargets_iff s x y n c).2 hc), Bool.xor_true]

theorem spriteDrawn_cell_of_not_spriteCell (hc : ¬ SpriteCell s x y n c) :
    (spriteDrawn x y n s).1.getLsbD c = s.fb.getLsbD c := by
  rw [spriteDrawn, drawSprite_cell _ _ _ _ (length_readBytes_nibble_le _ _ n),
    decide_eq_false (mt (mem_spriteTargets_iff s x y n c).1 hc), Bool.xor_false]

/-- A collision is a cell of the sprite that was lit (R174). -/
theorem spriteDrawn_hit_iff :
    (spriteDrawn x y n s).2 = true ↔ ∃ c, SpriteCell s x y n c ∧ s.fb.getLsbD c = true := by
  rw [spriteDrawn, drawSprite_hit _ _ _ _ (length_readBytes_nibble_le _ _ n), List.any_eq_true]
  exact exists_congr fun c => and_congr_left' (mem_spriteTargets_iff s x y n c)

/-- A sprite is the same from two states with the same I, bytes and coordinates. -/
theorem spriteCell_congr (hi : t.i = s.i) (hmem : ∀ a, t.byteAt a = s.byteAt a) (hx : t.reg x = s.reg x)
    (hy : t.reg y = s.reg y) : SpriteCell t x y n c ↔ SpriteCell s x y n c := by
  simp only [SpriteCell, hi, hmem, hx, hy]

/-! ## The instruction -/

/-- A sprite whose rows lie in memory is drawn; one of no rows reads none (R55). -/
theorem exec_drw_of_inside (h : n = 0 ∨ s.i.toNat + n.toNat - 1 ≤ 4095) : ∃ t, exec (.drw x y n) s = .next t := by
  refine ⟨_, withDataRange_inside _ fun ⟨hpos, hpast⟩ => ?_⟩
  obtain rfl | hin := h
  · exact absurd hpos (by decide)
  · exact Nat.not_lt_of_le hin hpast

/-- A sprite that runs past memory faults with its last address (R55, R206). -/
theorem exec_drw_of_outside (hn : n ≠ 0) (h : s.i.toNat + n.toNat - 1 > 4095) :
    exec (.drw x y n) s = .fault (.outOfBounds .data (s.i.toNat + n.toNat - 1)) := by
  have hpos : 1 ≤ n.toNat := Nat.pos_of_ne_zero fun h0 => hn (BitVec.eq_of_toNat_eq h0)
  exact withDataRange_outside _ ⟨hpos, h⟩

/-- What `Dxyn` answers when it completes: the sprite drawn, its collision in VF and REDRAW set (R171, R172). -/
theorem exec_drw_next (h : exec (.drw x y n) s = .next t) :
    t = (((s.setReg vf (flagByte (spriteDrawn x y n s).2)).setFb (spriteDrawn x y n s).1).setRedraw true).setPc
      (s.pc + 2) :=
  (Host.Outcome.next.inj (withDataRange_next h).2).symm

theorem exec_drw_fb (h : exec (.drw x y n) s = .next t) : t.fb = (spriteDrawn x y n s).1 := by
  rw [exec_drw_next h]; rfl

theorem exec_drw_vf (h : exec (.drw x y n) s = .next t) : t.reg 15 = flagByte (spriteDrawn x y n s).2 := by
  rw [exec_drw_next h]
  exact State.reg_setReg_self s vf _

/-- VF after `Dxyn` tells whether a cell of the sprite was lit (R174). -/
theorem exec_drw_vf_eq_one_iff (h : exec (.drw x y n) s = .next t) :
    t.reg 15 = 1 ↔ ∃ c, SpriteCell s x y n c ∧ s.fb.getLsbD c = true := by
  rw [exec_drw_vf h, flagByte_eq_one_iff, spriteDrawn_hit_iff]

theorem exec_drw_vf_eq_zero_iff (h : exec (.drw x y n) s = .next t) :
    t.reg 15 = 0 ↔ ¬ ∃ c, SpriteCell s x y n c ∧ s.fb.getLsbD c = true := by
  rw [exec_drw_vf h, flagByte_eq_zero_iff, spriteDrawn_hit_iff]

theorem exec_drw_cell_of_spriteCell (h : exec (.drw x y n) s = .next t) (hc : SpriteCell s x y n c) :
    t.fb.getLsbD c = !s.fb.getLsbD c :=
  exec_drw_fb h ▸ spriteDrawn_cell_of_spriteCell hc

theorem exec_drw_cell_of_not_spriteCell (h : exec (.drw x y n) s = .next t) (hc : ¬ SpriteCell s x y n c) :
    t.fb.getLsbD c = s.fb.getLsbD c :=
  exec_drw_fb h ▸ spriteDrawn_cell_of_not_spriteCell hc

/-- `Dxyn` changes the sprite's cells, VF, REDRAW and PC alone (R7). -/
theorem exec_drw_frame (h : exec (.drw x y n) s = .next t) :
    UnchangedBut (fun p => (∃ c : Fin 2048, SpriteCell s x y n c.val ∧ p = .cell c) ∨ p = .reg 15 ∨ p = .redraw ∨
      p = .pc) s t := by
  rw [exec_drw_next h]
  refine UnchangedBut.setPc ?_ (.inr (.inr (.inr rfl))) _
  refine UnchangedBut.setRedraw ?_ (.inr (.inr (.inl rfl))) true
  refine ((UnchangedBut.refl _ s).setReg (r := vf) (.inr (.inl rfl)) _).setFb fun c hc => ?_
  exact spriteDrawn_cell_of_not_spriteCell fun hsprite => hc (.inl ⟨c, hsprite, rfl⟩)

/-- A second draw has the cells of the first, if the first kept the coordinates (R174). -/
theorem spriteCell_after_drw (h : exec (.drw x y n) s = .next t) (hx : t.reg x = s.reg x) (hy : t.reg y = s.reg y) :
    SpriteCell t x y n c ↔ SpriteCell s x y n c :=
  spriteCell_congr ((exec_drw_frame h).i_eq (by simp)) (fun _ => (exec_drw_frame h).byteAt_eq (by simp)) hx hy

end

/-- Settles O29: the two sides of the bound; inside it, the cells and VF are those of the sprite drawn. (The name
`drawSprite` is the model's.) -/
theorem drawSprite_spec : Obligations.DrawSprite := by
  refine ⟨fun w hop => decodeWord_of_encode (packXYN_of_op hop), fun x y n s => ⟨exec_drw_of_outside, fun hin => ?_⟩⟩
  obtain ⟨t, ht⟩ := exec_drw_of_inside (x := x) (y := y) hin
  exact ⟨t, ht, fun _ => exec_drw_cell_of_spriteCell ht, (exec_drw_vf_eq_one_iff ht).2,
    (exec_drw_vf_eq_zero_iff ht).2, exec_sets_redraw (.inr ⟨x, y, n, rfl⟩) ht, exec_pc ht, exec_drw_frame ht⟩

/-- Settles O30: the second sprite has the cells of the first, each toggled twice, and its VF is that of any draw. -/
theorem drawTwiceRestores : Obligations.DrawTwiceRestores := by
  intro x y n s t u hst htu hx hy
  have hsame {c : Nat} : SpriteCell t x y n c ↔ SpriteCell s x y n c := spriteCell_after_drw hst hx hy
  refine ⟨fun c => ?_, ?_, ?_⟩
  · by_cases hc : SpriteCell s x y n c.val
    · rw [exec_drw_cell_of_spriteCell htu (hsame.2 hc), exec_drw_cell_of_spriteCell hst hc, Bool.not_not]
    · rw [exec_drw_cell_of_not_spriteCell htu (mt hsame.1 hc), exec_drw_cell_of_not_spriteCell hst hc]
  · rw [exec_drw_vf_eq_one_iff htu]
    simp only [hsame]
  · rw [exec_drw_vf_eq_one_iff htu, exec_drw_vf_eq_zero_iff htu]
    exact em _

end Sys2Proof.Machine

/-! # The keypad and the timers (R180 to R187)

The key skips are the skip of a condition once Vx is known to name a key. `Fx0A` answers in one of two ways, by whether
a key is down. The three moves of a timer write one part and go on, and the tick of their step then counts the timers
down. -/

namespace Sys2Proof.Machine

/-! ## Skips on a key -/

section
variable {s : State} {x : Reg} {k : Fin 16}

theorem exec_skp (x : Reg) (s : State) : exec (.skp x) s = withKey x s (skipIf · s) := rfl

theorem exec_sknp (x : Reg) (s : State) : exec (.sknp x) s = withKey x s fun down => skipIf (!down) s := rfl

/-- `Ex9E` with Vx a key's index is the skip on that key (R180). -/
theorem exec_skp_of_index (hk : (s.reg x).toNat = k.val) : exec (.skp x) s = skipIf (s.key.getLsbD k.val) s := by
  rw [exec_skp, withKey_inside _ (hk ▸ Nat.le_of_lt_succ k.isLt), hk]; rfl

/-- `ExA1` with Vx a key's index is the skip on the opposite condition (R181). -/
theorem exec_sknp_of_index (hk : (s.reg x).toNat = k.val) : exec (.sknp x) s = skipIf (!s.key.getLsbD k.val) s := by
  rw [exec_sknp, withKey_inside _ (hk ▸ Nat.le_of_lt_succ k.isLt), hk]; rfl

end

/-- Settles O31: Vx above 15 names no key; below, it names the key whose latch bit decides the skip. -/
theorem skipOnKey : Obligations.SkipOnKey := by
  refine ⟨fun w hop => ⟨fun hkk => ?_, fun hkk => ?_⟩, fun x s => ⟨fun hpast => ⟨?_, ?_⟩, fun k hk => ⟨?_, ?_⟩⟩⟩
  · exact decodeWord_of_op_kk hop hkk rfl
  · exact decodeWord_of_op_kk hop hkk rfl
  · rw [exec_skp, withKey_outside _ hpast]
  · rw [exec_sknp, withKey_outside _ hpast]
  · rw [exec_skp_of_index hk]
    exact skipIf_pc_and_frame Iff.rfl s
  · rw [exec_sknp_of_index hk]
    obtain ⟨t, ht, hpc, hframe⟩ := skipIf_pc_and_frame (Bool.not_eq_true' (s.key.getLsbD k.val)).to_iff s
    exact ⟨t, ht, hpc.trans (by simp only [← Bool.not_eq_true, ite_not]), hframe⟩

/-! ## Waiting for a key -/

/-- The latch is 0 exactly when no key is down (R34). -/
theorem latch_eq_zero_iff (key : BitVec 16) : key = 0 ↔ ∀ k : Fin 16, key.getLsbD k.val = false := by
  constructor
  · rintro rfl k
    exact BitVec.getLsbD_zero
  · intro h
    exact BitVec.eq_of_getLsbD_eq fun k hk => (h ⟨k, hk⟩).trans BitVec.getLsbD_zero.symm

section
variable {s : State}

/-- With a key down `Fx0A` writes the index of the one selected, and counts the selection as an input read (R182). -/
theorem exec_ldVxK_of_key (x : Reg) (hkey : s.key ≠ 0) :
    exec (.ldVxK x) s =
      sequential (s.setReg x (BitVec.ofNat 8 (selectKey s.draws s.key (pressedKeys s.key)))).countDraw := by
  change execLdVxK x s = _
  unfold execLdVxK
  split
  · exact absurd ((pressedKeys_eq_nil s.key).1 ‹_›) hkey
  · rw [‹pressedKeys s.key = _›]

/-- With a key down the key selected is one that is (R182). -/
theorem selectKey_down (draw : Nat) {key : BitVec 16} (hkey : key ≠ 0) :
    ∃ k : Fin 16, selectKey draw key (pressedKeys key) = k.val ∧ key.getLsbD k.val = true := by
  obtain ⟨hlt, hdown⟩ := (mem_pressedKeys _ _).1 (selectKey_mem draw key _ (mt (pressedKeys_eq_nil key).1 hkey))
  exact ⟨⟨_, hlt⟩, rfl, hdown⟩

/-- A fetch of `Fx0A` with no key down is the waiting one (R187). -/
theorem awaitingKey_of_noKey {x : Reg} (hi : fetchInstr s = .ok (.ldVxK x)) (hkey : s.key = 0) :
    awaitingKey s = true := by
  simp only [awaitingKey, hi, (pressedKeys_eq_nil s.key).2 hkey, List.isEmpty_nil]

end

/-- Settles O32: the latch tells which of its two answers `Fx0A` gives. -/
theorem waitForKey : Obligations.WaitForKey := by
  refine ⟨fun w hop hkk => decodeWord_of_op_kk hop hkk rfl, fun x s => ⟨fun hup => ?_, ?_⟩⟩
  · exact execLdVxK_of_noKey x ((latch_eq_zero_iff s.key).2 hup)
  · rintro ⟨j, hj⟩
    have hkey : s.key ≠ 0 := fun h0 => by simp [h0] at hj
    obtain ⟨k, hk, hdown⟩ := selectKey_down s.draws hkey
    have hindex : (BitVec.ofNat 8 k.val).toNat = k.val := Nat.mod_eq_of_lt (by omega)
    have ht := exec_ldVxK_of_key x hkey
    rw [hk, sequential_eq] at ht
    exact ⟨_, k, ht, hdown, (congrArg BitVec.toNat (State.reg_setReg_self s x _)).trans hindex, rfl,
      (((UnchangedBut.refl _ s).setReg (.inl rfl) _).countDraw (.inr (.inr rfl))).setPc (.inr (.inl rfl)) _⟩

/-! ## The tick after Execute -/

/-- A step whose instruction completes ticks the timers of the state it leaves (R250). -/
theorem step_of_exec_next {s t : State} {i : Instr} (hi : fetchInstr s = .ok i) (h : exec i s = .next t) :
    step s = .next (tick t) := by
  rw [step_of_fetchInstr hi, h, finish_next]

theorem toNat_tick_dt (s : State) : (tick s).dt.toNat = s.dt.toNat - 1 := toNat_countDown s.dt

theorem toNat_tick_st (s : State) : (tick s).st.toNat = s.st.toNat - 1 := toNat_countDown s.st

/-- Settles O33: nothing but the tick happens, which leaves PC and memory, so the next fetch is the same. -/
theorem waitingStep : Obligations.WaitingStep := by
  intro s x hi hkey
  have hstep : step s = .next (tick s) := step_of_exec_next hi (execLdVxK_of_noKey x hkey)
  have hreport : stepOutcome s = .waiting s.redraw := by
    simp only [stepOutcome, hstep, awaitingKey_of_noKey hi hkey, if_true, tick_redraw]
  have hfetch : fetchInstr (tick s) = .ok (.ldVxK x) := (fetchInstr_congr (byteAt_tick s) (tick_pc s)).trans hi
  exact ⟨_, hstep, toNat_tick_dt s, toNat_tick_st s, unchangedBut_tick s, hreport, hfetch⟩

/-! ## A timer read or loaded -/

section
variable (s : State) (b : Byte)

/-- DT loaded by a sequential instruction (R24). -/
theorem sequential_setDt :
    ∃ t, sequential (s.setDt b) = .next t ∧ t.dt = b ∧ t.pc = s.pc + 2 ∧
      UnchangedBut (fun p => p = .delayTimer ∨ p = .pc) s t :=
  ⟨_, sequential_eq _, rfl, rfl, ((UnchangedBut.refl _ s).setDt (.inl rfl) b).setPc (.inr rfl) _⟩

/-- ST loaded by a sequential instruction (R24). -/
theorem sequential_setSt :
    ∃ t, sequential (s.setSt b) = .next t ∧ t.st = b ∧ t.pc = s.pc + 2 ∧
      UnchangedBut (fun p => p = .soundTimer ∨ p = .pc) s t :=
  ⟨_, sequential_eq _, rfl, rfl, ((UnchangedBut.refl _ s).setSt (.inl rfl) b).setPc (.inr rfl) _⟩

end

/-- Settles O34: one part written in Execute, and both timers one lower after the tick. -/
theorem timerMoves : Obligations.TimerMoves := by
  refine ⟨fun w hop => ⟨fun hkk => ?_, fun hkk => ?_, fun hkk => ?_⟩, fun x s => ⟨?_, ?_, ?_⟩⟩
  · exact decodeWord_of_op_kk hop hkk rfl
  · exact decodeWord_of_op_kk hop hkk rfl
  · exact decodeWord_of_op_kk hop hkk rfl
  · obtain ⟨t, ht, hreg, hpc, hframe⟩ := sequential_setReg s x s.dt
    have hdt : t.dt = s.dt := hframe.dt_eq (by simp)
    exact ⟨t, ht, hreg, hpc, hframe, fun hi => ⟨_, step_of_exec_next hi ht, hreg, hdt ▸ toNat_tick_dt t⟩⟩
  · obtain ⟨t, ht, hdt, hpc, hframe⟩ := sequential_setDt s (s.reg x)
    exact ⟨t, ht, hdt, hpc, hframe, fun hi => ⟨_, step_of_exec_next hi ht, hdt ▸ toNat_tick_dt t⟩⟩
  · obtain ⟨t, ht, hst, hpc, hframe⟩ := sequential_setSt s (s.reg x)
    exact ⟨t, ht, hst, hpc, hframe, fun hi => ⟨_, step_of_exec_next hi ht, hst ▸ toNat_tick_st t⟩⟩

end Sys2Proof.Machine

/-! # Faults (R201 to R216)

`FaultsAs` reads R202's table on one side and an outcome on the other. Every instruction, and then every step, answers as
its row says; so a step's fault is a function of what the table reads, which is memory, PC, SP, I and V. -/

namespace Sys2Proof.Machine

/-! ## An outcome and a row of the table -/

/-- The outcome a row of R202 calls for: the fault where there is one, a next state where there is none. -/
def FaultsAs : Option Fault → Result → Prop
  | some f, r => r = .fault f
  | none, r   => ∃ t, r = .next t

section
variable {o : Option Fault} {r k : Result} {f : Fault}

theorem faultsAs_next (t : State) : FaultsAs none (.next t) := ⟨t, rfl⟩

theorem faultsAs_raise (f : Fault) : FaultsAs (some f) (raise f) := raise_eq f

/-- The row decides both whether the outcome is a fault, and which. -/
theorem FaultsAs.fault_iff (h : FaultsAs o r) (f : Fault) : r = .fault f ↔ o = some f := by
  cases o with
  | none =>
    obtain ⟨t, rfl⟩ := h
    simp
  | some g =>
    obtain rfl : r = .fault g := h
    simp

theorem FaultsAs.next_iff (h : FaultsAs o r) : (∃ t, r = .next t) ↔ o = none := by
  cases o with
  | none => exact ⟨fun _ => rfl, fun _ => h⟩
  | some g =>
    obtain rfl : r = .fault g := h
    simp

/-- A check before an effect that always completes. -/
theorem faultsAs_check {c : Prop} [Decidable c] (hk : FaultsAs none k) :
    FaultsAs (if c then some f else none) (if c then raise f else k) := by
  split
  · exact faultsAs_raise f
  · exact hk

/-- A data access of one cell or more is checked by its last address (R55). -/
theorem faultsAs_withDataRange {base last : Nat} (hk : FaultsAs none k) :
    FaultsAs (if base + last > 4095 then some (.outOfBounds .data (base + last)) else none)
      (withDataRange base (last + 1) k) := by
  split
  · exact withDataRange_of_last_gt k ‹_›
  · rw [withDataRange_of_last_le k (Nat.le_of_not_lt ‹_›)]
    exact hk

/-- The tick neither raises a fault nor hides one (R250). -/
theorem FaultsAs.finish (h : FaultsAs o r) : FaultsAs o (finish r) := by
  cases o with
  | none =>
    obtain ⟨t, rfl⟩ := h
    exact faultsAs_next (tick t)
  | some g => exact finish_eq_fault.2 h

end

/-! ## Every instruction -/

section
variable (s : State)

theorem faultsAs_exec_call (addr : Addr) : FaultsAs (executeFault (.call addr) s) (exec (.call addr) s) := by
  by_cases hfull : s.sp.val = 16
  · rw [executeFault, if_pos hfull]
    exact exec_call_of_full addr (by omega)
  · rw [executeFault, if_neg hfull]
    exact ⟨_, exec_call_of_lt addr (by omega)⟩

/-- `Fx0A` completes with a key down and without (R182). -/
theorem faultsAs_exec_ldVxK (x : Reg) : FaultsAs none (exec (.ldVxK x) s) := by
  by_cases hkey : s.key = 0
  · exact ⟨s, execLdVxK_of_noKey x hkey⟩
  · exact ⟨_, exec_ldVxK_of_key x hkey⟩

/-- Every instruction answers as its row of R202 says. -/
theorem faultsAs_exec (i : Instr) : FaultsAs (executeFault i s) (exec i s) := by
  cases i with
  | ret => exact faultsAs_check (faultsAs_next _)
  | call addr => exact faultsAs_exec_call s addr
  | drw => exact faultsAs_check (faultsAs_next _)
  | skp | sknp => exact faultsAs_check (faultsAs_next _)
  | ldB x => exact faultsAs_withDataRange (last := 2) (faultsAs_next _)
  | ldVxMem x => exact faultsAs_withDataRange (last := x.toNat) (faultsAs_next _)
  | ldMemVx => exact faultsAs_raise _
  | ldVxK x => exact faultsAs_exec_ldVxK s x
  | cls | jp | seByte | sneByte | seReg | ldByte | addByte | ldReg | orReg | andReg | xorReg | addReg | subReg | shr
  | subnReg | shl | sneReg | ldI | jpV0 | rnd | ldVxDt | ldDtVx | ldStVx | addI | ldF => exact faultsAs_next _

end

/-! ## Every step -/

section
variable {s t : State}

/-- Two bytes make a number below 2^16, so the word at PC has it as its value (R52). -/
theorem toNat_ofNat_wordNumberAt (s : State) : (BitVec.ofNat 16 (wordNumberAt s)).toNat = wordNumberAt s := by
  have hhigh := (s.byteAt s.pc.toNat).isLt
  have hlow := (s.byteAt (s.pc.toNat + 1)).isLt
  rw [BitVec.toNat_ofNat, wordNumberAt]
  omega

theorem stepFault_of_outside (h : s.pc.toNat > 4094) : stepFault s = some (.outOfBounds .code s.pc.toNat) := if_pos h

theorem stepFault_of_unsupported {e : DecodeError} (hpc : s.pc.toNat ≤ 4094)
    (hw : decodeWord (BitVec.ofNat 16 (wordNumberAt s)) = .error e) :
    stepFault s = some (.unsupportedOpcode (BitVec.ofNat 16 (wordNumberAt s)) s.pc) := by
  simp only [stepFault, if_neg (Nat.not_lt.2 hpc), hw]

theorem stepFault_of_instr {i : Instr} (hpc : s.pc.toNat ≤ 4094)
    (hw : decodeWord (BitVec.ofNat 16 (wordNumberAt s)) = .ok i) : stepFault s = executeFault i s := by
  simp only [stepFault, if_neg (Nat.not_lt.2 hpc), hw]

/-- Every step answers with the first fault of its phases, and completes when they meet none (R213). -/
theorem faultsAs_step (s : State) : FaultsAs (stepFault s) (step s) := by
  by_cases hpast : s.pc.toNat > 4094
  · rw [stepFault_of_outside hpast]
    exact step_outside rfl hpast
  · have hpc : s.pc.toNat ≤ 4094 := Nat.le_of_not_lt hpast
    have hword := (toNat_ofNat_wordNumberAt s).symm
    obtain ⟨i, hi, -⟩ | ⟨he, -⟩ := decodesFaithfully_decodeWord (BitVec.ofNat 16 (wordNumberAt s))
    · rw [stepFault_of_instr hpc hi, step_of_fetchInstr (fetchInstr_of_word hi hpc hword)]
      exact (faultsAs_exec s i).finish
    · rw [stepFault_of_unsupported hpc he]
      exact step_of_unsupported he hpc hword

/-! ## What the table reads -/

theorem wordNumberAt_congr (hmem : ∀ a, t.byteAt a = s.byteAt a) (hpc : t.pc = s.pc) :
    wordNumberAt t = wordNumberAt s := by
  simp only [wordNumberAt, hmem, hpc]

/-- The rows of Execute read PC, SP, I and V alone (R204). -/
theorem executeFault_congr (i : Instr) (hpc : t.pc = s.pc) (hsp : t.sp = s.sp) (hi : t.i = s.i)
    (hreg : ∀ r, t.reg r = s.reg r) : executeFault i t = executeFault i s := by
  cases i with
  | ret | call => simp only [executeFault, hsp, hpc]
  | drw | ldB | ldVxMem => simp only [executeFault, hi]
  | skp | sknp => simp only [executeFault, hreg]
  | ldMemVx => simp only [executeFault, hpc]
  | cls | jp | seByte | sneByte | seReg | ldByte | addByte | ldReg | orReg | andReg | xorReg | addReg | subReg | shr
  | subnReg | shl | sneReg | ldI | jpV0 | rnd | ldVxDt | ldVxK | ldDtVx | ldStVx | addI | ldF => rfl

theorem stepFault_congr (hmem : ∀ a, t.byteAt a = s.byteAt a) (hpc : t.pc = s.pc) (hsp : t.sp = s.sp)
    (hi : t.i = s.i) (hreg : ∀ r, t.reg r = s.reg r) : stepFault t = stepFault s := by
  simp only [stepFault, wordNumberAt_congr hmem hpc, hpc, executeFault_congr _ hpc hsp hi hreg]

end

/-- Settles O38: every instruction and every step answers as the table says, and a table entry is a fault or none. -/
theorem faultsExactlyAsTabulated : Obligations.FaultsExactlyAsTabulated :=
  ⟨fun i s => ⟨(faultsAs_exec s i).fault_iff, (faultsAs_exec s i).next_iff⟩,
    fun s => ⟨(faultsAs_step s).fault_iff, (faultsAs_step s).next_iff⟩⟩

/-- Settles O40: a step that faults leaves the state as it was, and the table reads nothing in which the two states may
differ. -/
theorem faultsRepeat : Obligations.FaultsRepeat := by
  refine ⟨fun s f h => ?_, fun s t f hmem hpc hsp hi hreg h => ?_⟩
  · rw [operate_step_fault h]
    exact ⟨rfl, h⟩
  · rw [(faultsAs_step t).fault_iff, stepFault_congr hmem hpc hsp hi hreg]
    exact ((faultsAs_step s).fault_iff f).1 h

end Sys2Proof.Machine

/-! # The step and its report (R250 to R252)

The two bytes at PC decide the phase a step ends in. What it reports is its outcome with REDRAW as it stands afterwards,
which only the two instructions of the display can have changed. At a jump to itself nothing is left of a step but the
tick. -/

namespace Sys2Proof.Machine

section
variable {s : State} {i : Instr}

/-! ## The phases of a step -/

/-- Two bytes decode as the word they make (R53, R70). -/
theorem decodeWord_of_decode_pair {b0 b1 : Byte} (h : decode [b0, b1] = .ok (i, [])) :
    decodeWord (wordOfBytes b0 b1) = .ok i := by
  simp only [decode] at h
  split at h
  · cases h
    assumption
  · cases h

/-- The instruction at PC is the one fetched (R52). -/
theorem fetchInstr_of_decode (hpc : s.pc.toNat ≤ 4094)
    (h : decode [s.byteAt s.pc.toNat, s.byteAt (s.pc.toNat + 1)] = .ok (i, [])) : fetchInstr s = .ok i :=
  fetchInstr_of_word (decodeWord_of_decode_pair h) hpc (toNat_wordOfBytes _ _).symm

/-- A step whose instruction faults ends with that fault (R203). -/
theorem step_of_exec_fault {f : Fault} (hi : fetchInstr s = .ok i) (h : exec i s = .fault f) : step s = .fault f := by
  rw [step_of_fetchInstr hi, h, finish_fault]

end

/-- Settles O36: the three phases in which a step can end, by the two bytes at PC. -/
theorem stepRunsDecodedInstruction : Obligations.StepRunsDecodedInstruction := by
  refine fun s => ⟨step_outside rfl, fun hpc => ⟨fun w hword hw => ?_, fun i hdecode _ => ?_⟩⟩
  · exact step_of_unsupported hw hpc hword.symm
  · have hi := fetchInstr_of_decode hpc hdecode
    exact ⟨fun u => step_of_exec_next hi, fun f => step_of_exec_fault hi⟩

section
variable {s t : State} {i : Instr}

/-! ## What a step reports -/

/-- The next step waits exactly when it fetches `Fx0A` and no key is down (R187). -/
theorem awaitingKey_iff : awaitingKey s = true ↔ (∃ x, fetchInstr s = .ok (.ldVxK x)) ∧ s.key = 0 := by
  refine ⟨fun h => ?_, fun ⟨⟨x, hi⟩, hkey⟩ => awaitingKey_of_noKey hi hkey⟩
  unfold awaitingKey at h
  split at h
  · rename_i x hi
    exact ⟨⟨x, hi⟩, (pressedKeys_eq_nil s.key).1 (List.isEmpty_iff.1 h)⟩
  · cases h

theorem stepOutcome_fault {f : Fault} (h : step s = .fault f) : stepOutcome s = .fault f := by
  simp only [stepOutcome, h]

theorem stepOutcome_waiting (h : step s = .next t) (hwait : awaitingKey s = true) :
    stepOutcome s = .waiting t.redraw := by
  simp only [stepOutcome, h, if_pos hwait]

theorem stepOutcome_retired (h : step s = .next t) (hwait : ¬ awaitingKey s = true) :
    stepOutcome s = .retired t.redraw := by
  simp only [stepOutcome, h, if_neg hwait]

/-- REDRAW after an instruction: it was set, or the instruction is one of the display (R36). -/
theorem exec_redraw_iff (h : exec i s = .next t) :
    t.redraw = true ↔ s.redraw = true ∨ i = .cls ∨ ∃ x y n, i = .drw x y n := by
  by_cases hi : i = .cls ∨ ∃ x y n, i = .drw x y n
  · exact iff_of_true (exec_sets_redraw hi h) (.inr hi)
  · rw [(exec_frame h).redraw_eq hi, or_iff_left hi]

/-- REDRAW after a step, by the instruction fetched; the tick leaves it (R36). -/
theorem step_redraw_iff (h : step s = .next t) :
    t.redraw = true ↔ s.redraw = true ∨ fetchInstr s = .ok .cls ∨ ∃ x y n, fetchInstr s = .ok (.drw x y n) := by
  obtain ⟨i, u, hi, hu, rfl⟩ := step_next h
  simp only [tick_redraw, exec_redraw_iff hu, hi, Except.ok.injEq]

end

/-- Settles O42: the report follows the step's outcome, and REDRAW is that of the instruction executed. -/
theorem stepReport : Obligations.StepReport := by
  refine fun s => ⟨fun f => stepOutcome_fault, fun t h hi hkey => ?_, fun t h hother => ?_, fun t => step_redraw_iff,
    rfl⟩
  · exact stepOutcome_waiting h (awaitingKey_iff.2 ⟨hi, hkey⟩)
  · refine stepOutcome_retired h fun hwait => ?_
    obtain ⟨⟨x, hi⟩, hkey⟩ := awaitingKey_iff.1 hwait
    exact hother.elim (fun hne => hne x hi) (fun hdown => hdown hkey)

section
variable {s : State}

/-! ## The jump to itself -/

/-- The instruction at a jump to itself, PC fitting the address field (R101). -/
theorem fetchInstr_of_atSelfJump (h : AtSelfJump s) : fetchInstr s = .ok (.jp (s.pc.setWidth 12)) := by
  obtain ⟨hpc, hword⟩ := h
  refine fetchInstr_of_word (decodeWord_encode (.jp _)) hpc (hword.trans ?_)
  have hop : (1 : Nibble).toNat = 1 := rfl
  rw [encode, toNat_packA, BitVec.toNat_setWidth, hop]
  omega

/-- At a jump to itself a step is the tick alone. -/
theorem step_of_atSelfJump (h : AtSelfJump s) : step s = .next (tick s) := by
  have htarget : zextAddr (s.pc.setWidth 12) = s.pc := by
    obtain ⟨hpc, -⟩ := h
    apply BitVec.eq_of_toNat_eq
    rw [toNat_zextAddr, BitVec.toNat_setWidth]
    omega
  refine step_of_exec_next (fetchInstr_of_atSelfJump h) ?_
  rw [exec_jp, htarget]
  rfl

end

/-- Settles O43: the step is the tick, which leaves PC and memory. -/
theorem selfJumpChangesOnlyTimers : Obligations.SelfJumpChangesOnlyTimers :=
  fun s h => ⟨tick s, step_of_atSelfJump h, unchangedBut_tick s, h⟩

end Sys2Proof.Machine

/-! # Reset (R240 to R243)

Memory after reset is the font and zeros, so the word at the program origin is 0x0000, which is illegal. -/

namespace Sys2Proof.Machine

/-! ## Memory after reset -/

/-- An unlisted cell of the font holds its byte of the table (R40). -/
theorem initialByte_font (k : Fin 80) : initialByte (fontOrigin + k.val) = fontByte k := by
  have hrange : fontOrigin ≤ fontOrigin + k.val ∧ fontOrigin + k.val < fontOrigin + 80 := by omega
  rw [initialByte_eq, dif_pos hrange]
  exact congrArg fontByte (Fin.ext (Nat.add_sub_cancel_left fontOrigin k.val))

/-- An unlisted cell outside the font holds 0 (R240). -/
theorem initialByte_outside_font {a : Nat} (h : a < fontOrigin ∨ fontOrigin + 80 ≤ a) : initialByte a = 0 := by
  rw [initialByte_eq, dif_neg (by omega)]

theorem State.byteAt_reset (a : Nat) : State.reset.byteAt a = initialByte a := rfl

theorem State.reg_reset (r : Reg) : State.reset.reg r = 0 := Vector.getElem_replicate r.isLt

/-! ## Resetting from any state -/

/-- Resetting leaves the reset state with the counter it found (R241, log entry 5). -/
theorem initializeOp_eq (s : State) : initializeOp s = State.reset.withDraws s.draws := rfl

theorem unchangedBut_withDraws (s : State) (d : Nat) : UnchangedBut (fun p => p = .draws) s (s.withDraws d) :=
  fun p hp => by
    cases p with
    | draws => exact absurd rfl hp
    | _ => rfl

/-- Above the font no program stands after reset: the word at the program origin is 0 (R240, R243). -/
theorem wordNumberAt_reset : wordNumberAt State.reset = 0 := by
  have hzero (a : Nat) (ha : 0x200 ≤ a) : State.reset.byteAt a = 0 := by
    have := fontOrigin_le
    rw [State.byteAt_reset, initialByte_outside_font (by omega)]
  have hpc : State.reset.pc.toNat = 0x200 := rfl
  simp only [wordNumberAt, hpc, hzero 0x200 (by decide), hzero (0x200 + 1) (by decide)]
  rfl

theorem step_reset : step State.reset = .fault (.unsupportedOpcode 0x0000 0x200) :=
  step_of_unsupported (w := 0x0000) rfl (by decide) wordNumberAt_reset

/-- Settles O48: the fields as reset sets them, and memory as the font and zeros. -/
theorem resetState : Obligations.ResetState :=
  ⟨State.reg_reset, rfl, rfl, fun k => Vector.getElem_replicate k.isLt, rfl, rfl, rfl, fun _ => BitVec.getLsbD_zero,
    fun _ => BitVec.getLsbD_zero, rfl, Nat.add_le_add_right fontOrigin_le 80, initialByte_font,
    fun _ _ => initialByte_outside_font⟩

/-- Settles O49: the base of the induction over reachable states. -/
theorem resetMeetsInvariant : Obligations.ResetMeetsInvariant := inv_reset

/-- Settles O52: the state after reset with another counter, whose first step faults as that from reset does. -/
theorem initializeFromAnyState : Obligations.InitializeFromAnyState := by
  intro s
  rw [initializeOp_eq]
  exact ⟨unchangedBut_withDraws _ _, step_fault_withDraws _ step_reset⟩

end Sys2Proof.Machine

/-! # The host's operations (R244 to R247)

Each writes one part of the state, or nothing: memory from 0x200 on, the latch, REDRAW. -/

namespace Sys2Proof.Machine

section
variable (m : Memory) {bytes : List Byte}

/-! ## Loading a program -/

/-- The byte `k` places after where bytes were stored is byte `k` of them. -/
theorem Memory.read_writeBytes_add {a k : Nat} {bs : List Byte} (h : k < bs.length) :
    Memory.read (Memory.writeBytes m a bs) (a + k) = bs.getD k 0 := by
  rw [Memory.read_writeBytes, if_pos (by omega), Nat.add_sub_cancel_left]

/-- Storing bytes changes the cells they fall on alone. -/
theorem Memory.read_writeBytes_of_not_stored {a p : Nat} {bs : List Byte} (h : ∀ k, k < bs.length → p ≠ a + k) :
    Memory.read (Memory.writeBytes m a bs) p = Memory.read m p := by
  have hout : ¬ (a ≤ p ∧ p < a + bs.length) := fun hin => h (p - a) (by omega) (by omega)
  rw [Memory.read_writeBytes, if_neg hout]

theorem loadProgram_of_gt (h : bytes.length > 3584) (s : State) : loadProgram bytes s = .error .programTooLarge :=
  if_pos h

theorem loadProgram_of_le (h : bytes.length ≤ 3584) (s : State) :
    loadProgram bytes s = .ok (s.setMem (Memory.writeBytes s.mem 0x200 bytes)) := if_neg (Nat.not_lt.2 h)

end

/-- Settles O53: the two sides of the bound; inside it the image stands from 0x200 on and every other cell is kept. -/
theorem loadProgramCopies : Obligations.LoadProgramCopies := by
  refine fun bytes s => ⟨fun h => ⟨loadProgram_of_gt h s, operate_loadProgram_of_gt h s⟩, fun h => ?_⟩
  refine ⟨_, loadProgram_of_le h s, operate_loadProgram_of_le h s, fun k => Memory.read_writeBytes_add s.mem, ?_⟩
  refine (UnchangedBut.refl _ s).setMem fun a ha => Memory.read_writeBytes_of_not_stored s.mem ?_
  exact fun k hk hak => ha ⟨k, hk, congrArg Part.memory hak⟩

/-! ## The keypad latch -/

/-- The latch of a list of booleans has element `k` for key `k` (R245). -/
theorem getLsbD_latchWord (snapshot : List Bool) {k : Nat} (hk : k < 16) :
    (latchWord snapshot).getLsbD k = snapshot.getD k false := by
  induction snapshot generalizing k with
  | nil => exact BitVec.getLsbD_zero
  | cons b bs ih =>
    have hcons : latchWord (b :: bs) = (latchWord bs <<< 1) ||| (if b then 1 else 0) := rfl
    rw [hcons, BitVec.getLsbD_or, BitVec.getLsbD_shiftLeft]
    cases k with
    | zero => cases b <;> simp
    | succ k =>
      have hlow : (if b then (1 : BitVec 16) else 0).getLsbD (k + 1) = false := by cases b <;> simp
      rw [hlow, Nat.add_sub_cancel, ih (by omega)]
      simp [hk]

theorem unchangedBut_setKey (s : State) (latch : BitVec 16) :
    UnchangedBut (fun p => ∃ k, p = .key k) s (s.setKey latch) := fun p hp => by
  cases p with
  | key k => exact absurd ⟨k, rfl⟩ hp
  | _ => rfl

/-- Settles O54: both forms set the latch and no other part, the list by its latch word. -/
theorem setKeysReplaces : Obligations.SetKeysReplaces := by
  refine ⟨fun snapshot s => ⟨fun _ => rfl, unchangedBut_setKey s _⟩, fun snapshot s => ⟨fun h => if_neg h, fun h => ?_⟩⟩
  exact ⟨_, if_pos h, fun k => getLsbD_latchWord snapshot k.isLt, unchangedBut_setKey s _⟩

/-! ## The screen read and acknowledged -/

/-- Settles O55: a read that is no transition, REDRAW as the one part cleared, and REDRAW after a step. -/
theorem hostReadsAndClears : Obligations.HostReadsAndClears :=
  fun s => ⟨fun _ => rfl, rfl, rfl, (UnchangedBut.refl (fun p => p = .redraw) s).setRedraw rfl false,
    fun _ h hredraw => (step_redraw_iff h).2 (.inl hredraw)⟩

end Sys2Proof.Machine
